-- ==== Sys2Proof/Word.lean ====
section
/-! DEFINITION. The word types of the core: 8-bit registers and memory bytes, 16-bit I, PC, stack entries and opcodes, and the index of a general register. -/

namespace Sys2Proof

/-- A value of a general register, a timer or a memory byte (10_state.md R20, R27; 20_memory.md R50). -/
abbrev Byte := BitVec 8

/-- A value of I, PC or a stack entry, or an opcode word (10_state.md R23, R25, R26; 30_encoding.md R70). -/
abbrev Word := BitVec 16

/-- The index of a general register V0..VF: the X or Y field of an instruction (30_encoding.md R73). -/
abbrev Reg := Fin 16

/-- VF, the general register that is also the flag output (10_state.md R21). -/
def Reg.vf : Reg := 15

end Sys2Proof
end

