-- ==== Sys2Proof/Syntax.lean ====
section
/-! DEFINITION. The 34 instructions of spec/opcode_table.json as data, one constructor per row, named after the cases of Decode in 30_encoding.md R76. Every other 16-bit word is the unknown-opcode no-op (R77) and is no instruction. -/

namespace Sys2Proof

/-- An instruction. X and Y are register indices, `kk` is the immediate byte, `nnn` the address, `n` the row count (30_encoding.md
R73, R74). `nnn` is held zero-extended to 16 bits, as R74 writes it to PC or I, and `n` is a count; WellFormed.lean gives
the bounds the encoding puts on them. -/
inductive Instr where
  /-- 00E0 CLS (43_display.md R170). -/
  | cls
  /-- 00EE RET (40_control_flow.md R100). -/
  | ret
  /-- 1nnn JP nnn (40_control_flow.md R101). -/
  | jp (nnn : Word)
  /-- 2nnn CALL nnn (40_control_flow.md R102). -/
  | call (nnn : Word)
  /-- 3Xkk SE VX, kk (40_control_flow.md R103). -/
  | seImm (x : Reg) (kk : Byte)
  /-- 4Xkk SNE VX, kk (40_control_flow.md R104). -/
  | sneImm (x : Reg) (kk : Byte)
  /-- 5XY0 SE VX, VY (40_control_flow.md R105). -/
  | seReg (x y : Reg)
  /-- 6Xkk LD VX, kk (41_alu.md R121). -/
  | ldImm (x : Reg) (kk : Byte)
  /-- 7Xkk ADD VX, kk (41_alu.md R122). -/
  | addImm (x : Reg) (kk : Byte)
  /-- 8XY0 LD VX, VY (41_alu.md R123). -/
  | ldReg (x y : Reg)
  /-- 8XY1 OR VX, VY (41_alu.md R124). -/
  | orReg (x y : Reg)
  /-- 8XY2 AND VX, VY (41_alu.md R125). -/
  | andReg (x y : Reg)
  /-- 8XY3 XOR VX, VY (41_alu.md R126). -/
  | xorReg (x y : Reg)
  /-- 8XY4 ADD VX, VY (41_alu.md R127). -/
  | addReg (x y : Reg)
  /-- 8XY5 SUB VX, VY (41_alu.md R128). -/
  | sub (x y : Reg)
  /-- 8XY6 SHR VX (41_alu.md R129); Y is decoded and not used (30_encoding.md R78). -/
  | shr (x y : Reg)
  /-- 8XY7 SUBN VX, VY (41_alu.md R130). -/
  | subn (x y : Reg)
  /-- 8XYE SHL VX (41_alu.md R131); Y is decoded and not used (30_encoding.md R78). -/
  | shl (x y : Reg)
  /-- 9XY0 SNE VX, VY (40_control_flow.md R106). -/
  | sneReg (x y : Reg)
  /-- Annn LD I, nnn (42_index_memory.md R150). -/
  | ldI (nnn : Word)
  /-- Bnnn JP V0, nnn (40_control_flow.md R107). -/
  | jpV0 (nnn : Word)
  /-- CXkk RND VX, kk (41_alu.md R132). -/
  | rnd (x : Reg) (kk : Byte)
  /-- DXYN DRW VX, VY, N (43_display.md R171). -/
  | drw (x y : Reg) (n : Nat)
  /-- EX9E SKP VX (44_keys_timers.md R180). -/
  | skp (x : Reg)
  /-- EXA1 SKNP VX (44_keys_timers.md R181). -/
  | sknp (x : Reg)
  /-- FX07 LD VX, DT (44_keys_timers.md R183). -/
  | ldVxDt (x : Reg)
  /-- FX0A LD VX, K (44_keys_timers.md R184). -/
  | ldVxK (x : Reg)
  /-- FX15 LD DT, VX (44_keys_timers.md R185). -/
  | ldDtVx (x : Reg)
  /-- FX18 LD ST, VX (44_keys_timers.md R186). -/
  | ldStVx (x : Reg)
  /-- FX1E ADD I, VX (42_index_memory.md R151). -/
  | addIVx (x : Reg)
  /-- FX29 LD F, VX (42_index_memory.md R152). -/
  | ldFVx (x : Reg)
  /-- FX33 LD B, VX (42_index_memory.md R153). -/
  | ldBVx (x : Reg)
  /-- FX55 LD [I], VX (42_index_memory.md R154). -/
  | ldMemVx (x : Reg)
  /-- FX65 LD VX, [I] (42_index_memory.md R155). -/
  | ldVxMem (x : Reg)
  deriving DecidableEq, Repr

end Sys2Proof
end

