-- ==== Sys2Proof/WellFormed.lean ====
section
/-! DEFINITION. When an instruction can be written in the 16-bit encoding (30_encoding.md R72 to R74): an address fits 12 bits and a sprite's row count fits 4. Register indices and immediates fit by their types. -/

namespace Sys2Proof

/-- An address operand fits the 12-bit field nnn (30_encoding.md R73, R74: values 0x000..0xFFF). -/
abbrev fitsAddress (nnn : Word) : Prop := nnn.toNat < 0x1000

/-- A row count fits the 4-bit field N (30_encoding.md R73, R74: 0..15). -/
abbrev fitsRows (n : Nat) : Prop := n < 16

/-- The instruction has an encoding: each operand fits its field. -/
def Instr.wellFormed : Instr → Bool
  | .jp nnn | .call nnn | .ldI nnn | .jpV0 nnn => decide (fitsAddress nnn)
  | .drw _ _ n => decide (fitsRows n)
  | .cls | .ret => true
  | .seImm _ _ | .sneImm _ _ | .ldImm _ _ | .addImm _ _ | .rnd _ _ => true
  | .seReg _ _ | .sneReg _ _ | .ldReg _ _ | .orReg _ _ | .andReg _ _ | .xorReg _ _ | .addReg _ _ | .sub _ _ | .shr _ _
  | .subn _ _ | .shl _ _ => true
  | .skp _ | .sknp _ | .ldVxDt _ | .ldVxK _ | .ldDtVx _ | .ldStVx _ | .addIVx _ | .ldFVx _ | .ldBVx _ | .ldMemVx _
  | .ldVxMem _ => true

end Sys2Proof
end

