-- ==== Sys2Proof/Decode.lean ====
section
/-! DEFINITION. The decoder (30_encoding.md R70 to R78), total on every 16-bit word and on any bytes, rejecting a word that is no instruction by name; after it the encoder, from the same formats. -/

namespace Sys2Proof

/-- op[15:12], the major opcode (30_encoding.md R71). -/
def nibble0 (op : Word) : BitVec 4 := op.extractLsb' 12 4

/-- op[11:8] (30_encoding.md R71). -/
def nibble1 (op : Word) : BitVec 4 := op.extractLsb' 8 4

/-- op[7:4] (30_encoding.md R71). -/
def nibble2 (op : Word) : BitVec 4 := op.extractLsb' 4 4

/-- op[3:0] (30_encoding.md R71). -/
def nibble3 (op : Word) : BitVec 4 := op.extractLsb' 0 4

/-- The X field, bits 11:8 (30_encoding.md R73). -/
def fieldX (op : Word) : Reg := (nibble1 op).toFin

/-- The Y field, bits 7:4 (30_encoding.md R73). -/
def fieldY (op : Word) : Reg := (nibble2 op).toFin

/-- The N field, bits 3:0, a count (30_encoding.md R73). -/
def fieldN (op : Word) : Nat := (nibble3 op).toNat

/-- The kk field, bits 7:0 (30_encoding.md R73). -/
def fieldKK (op : Word) : Byte := op.extractLsb' 0 8

/-- The nnn field, bits 11:0, zero-extended to 16 bits (30_encoding.md R73, R74). -/
def fieldNNN (op : Word) : Word := (op.extractLsb' 0 12).setWidth 16

/-- What a word decodes to: an instruction, or Unknown(op), rejected by name (30_encoding.md R76, R77). -/
inductive Decoded where
  /-- One of the 34 instructions. -/
  | instr (i : Instr)
  /-- No row of the opcode table matches the word: the unknown-opcode no-op (30_encoding.md R82). -/
  | unknown (op : Word)
  deriving DecidableEq, Repr

/-- The words with nibble0 = 8, selected by nibble3 (30_encoding.md R76). -/
def decode8 (op : Word) : Decoded :=
  match fieldN op with
  | 0x0 => .instr (.ldReg (fieldX op) (fieldY op))
  | 0x1 => .instr (.orReg (fieldX op) (fieldY op))
  | 0x2 => .instr (.andReg (fieldX op) (fieldY op))
  | 0x3 => .instr (.xorReg (fieldX op) (fieldY op))
  | 0x4 => .instr (.addReg (fieldX op) (fieldY op))
  | 0x5 => .instr (.sub (fieldX op) (fieldY op))
  | 0x6 => .instr (.shr (fieldX op) (fieldY op))
  | 0x7 => .instr (.subn (fieldX op) (fieldY op))
  | 0xE => .instr (.shl (fieldX op) (fieldY op))
  | _ => .unknown op

/-- The words with nibble0 = E, selected by the low byte (30_encoding.md R76). -/
def decodeE (op : Word) : Decoded :=
  match (fieldKK op).toNat with
  | 0x9E => .instr (.skp (fieldX op))
  | 0xA1 => .instr (.sknp (fieldX op))
  | _ => .unknown op

/-- The words with nibble0 = F, selected by the low byte (30_encoding.md R76). -/
def decodeF (op : Word) : Decoded :=
  match (fieldKK op).toNat with
  | 0x07 => .instr (.ldVxDt (fieldX op))
  | 0x0A => .instr (.ldVxK (fieldX op))
  | 0x15 => .instr (.ldDtVx (fieldX op))
  | 0x18 => .instr (.ldStVx (fieldX op))
  | 0x1E => .instr (.addIVx (fieldX op))
  | 0x29 => .instr (.ldFVx (fieldX op))
  | 0x33 => .instr (.ldBVx (fieldX op))
  | 0x55 => .instr (.ldMemVx (fieldX op))
  | 0x65 => .instr (.ldVxMem (fieldX op))
  | _ => .unknown op

/-- Decode (30_encoding.md R76), total on all 65536 words. Every fixed digit of a pattern must match (log 14). -/
def decodeWord (op : Word) : Decoded :=
  match (nibble0 op).toNat with
  | 0x0 => if op = 0x00E0 then .instr .cls else if op = 0x00EE then .instr .ret else .unknown op
  | 0x1 => .instr (.jp (fieldNNN op))
  | 0x2 => .instr (.call (fieldNNN op))
  | 0x3 => .instr (.seImm (fieldX op) (fieldKK op))
  | 0x4 => .instr (.sneImm (fieldX op) (fieldKK op))
  | 0x5 => if fieldN op = 0 then .instr (.seReg (fieldX op) (fieldY op)) else .unknown op
  | 0x6 => .instr (.ldImm (fieldX op) (fieldKK op))
  | 0x7 => .instr (.addImm (fieldX op) (fieldKK op))
  | 0x8 => decode8 op
  | 0x9 => if fieldN op = 0 then .instr (.sneReg (fieldX op) (fieldY op)) else .unknown op
  | 0xA => .instr (.ldI (fieldNNN op))
  | 0xB => .instr (.jpV0 (fieldNNN op))
  | 0xC => .instr (.rnd (fieldX op) (fieldKK op))
  | 0xD => .instr (.drw (fieldX op) (fieldY op) (fieldN op))
  | 0xE => decodeE op
  | _ => decodeF op

/-- The word of two bytes fetched one after the other: hi * 256 + lo (20_memory.md R56, R59). -/
def wordOfBytes (hi lo : Byte) : Word := BitVec.ofNat 16 (hi.toNat * 256 + lo.toNat)

/-- The high byte of a word, bits 15:8, the byte at the lower address (20_memory.md R59). -/
def highByte (op : Word) : Byte := op.extractLsb' 8 8

/-- The low byte of a word, bits 7:0, the byte at the higher address (20_memory.md R59). -/
def lowByte (op : Word) : Byte := op.extractLsb' 0 8

/-- A word as memory holds it, the first byte at the lowest address (20_memory.md R59). -/
def bytesOfWord (op : Word) : List Byte := [highByte op, lowByte op]

/-- Decoding from bytes: exactly two are consumed and the rest is given back (30_encoding.md R70); none where there are
fewer than two. -/
def decodeBytes : List Byte → Option (Decoded × List Byte)
  | hi :: lo :: rest => some (decodeWord (wordOfBytes hi lo), rest)
  | _ => none

/-- The instruction the decoder reads from an instruction whose bits are w, numbered as spec/opcode_table.json numbers them:
every row is one 16-bit word. None where the decoder answers Unknown. -/
def decodeTableWord (nbits w : Nat) : Option Instr :=
  match decodeBytes (bytesOfWord (BitVec.ofNat 16 (w % 2 ^ nbits))) with
  | some (.instr i, _) => some i
  | _ => none

/-- Format NNN: the digit d, then the 12-bit address (30_encoding.md R72). -/
def encodeNNN (d : Nat) (nnn : Word) : Word := BitVec.ofNat 16 (d * 0x1000 + nnn.toNat)

/-- Format XKK: the digit d, X, then the immediate byte (30_encoding.md R72). -/
def encodeXKK (d : Nat) (x : Reg) (kk : Byte) : Word := BitVec.ofNat 16 (d * 0x1000 + x.val * 0x100 + kk.toNat)

/-- Formats XY0 and XYN: the digit d, X, Y, then the last digit (30_encoding.md R72). -/
def encodeXYN (d : Nat) (x y : Reg) (n : Nat) : Word :=
  BitVec.ofNat 16 (d * 0x1000 + x.val * 0x100 + y.val * 0x10 + n)

/-- Format XSUB: the digit d, X, then the fixed low byte (30_encoding.md R72). -/
def encodeXSUB (d : Nat) (x : Reg) (low : Nat) : Word := BitVec.ofNat 16 (d * 0x1000 + x.val * 0x100 + low)

/-- The word of a well-formed instruction (30_encoding.md R72, R75). -/
def encode : Instr → Word
  | .cls => 0x00E0
  | .ret => 0x00EE
  | .jp nnn => encodeNNN 0x1 nnn
  | .call nnn => encodeNNN 0x2 nnn
  | .seImm x kk => encodeXKK 0x3 x kk
  | .sneImm x kk => encodeXKK 0x4 x kk
  | .seReg x y => encodeXYN 0x5 x y 0x0
  | .ldImm x kk => encodeXKK 0x6 x kk
  | .addImm x kk => encodeXKK 0x7 x kk
  | .ldReg x y => encodeXYN 0x8 x y 0x0
  | .orReg x y => encodeXYN 0x8 x y 0x1
  | .andReg x y => encodeXYN 0x8 x y 0x2
  | .xorReg x y => encodeXYN 0x8 x y 0x3
  | .addReg x y => encodeXYN 0x8 x y 0x4
  | .sub x y => encodeXYN 0x8 x y 0x5
  | .shr x y => encodeXYN 0x8 x y 0x6
  | .subn x y => encodeXYN 0x8 x y 0x7
  | .shl x y => encodeXYN 0x8 x y 0xE
  | .sneReg x y => encodeXYN 0x9 x y 0x0
  | .ldI nnn => encodeNNN 0xA nnn
  | .jpV0 nnn => encodeNNN 0xB nnn
  | .rnd x kk => encodeXKK 0xC x kk
  | .drw x y n => encodeXYN 0xD x y n
  | .skp x => encodeXSUB 0xE x 0x9E
  | .sknp x => encodeXSUB 0xE x 0xA1
  | .ldVxDt x => encodeXSUB 0xF x 0x07
  | .ldVxK x => encodeXSUB 0xF x 0x0A
  | .ldDtVx x => encodeXSUB 0xF x 0x15
  | .ldStVx x => encodeXSUB 0xF x 0x18
  | .addIVx x => encodeXSUB 0xF x 0x1E
  | .ldFVx x => encodeXSUB 0xF x 0x29
  | .ldBVx x => encodeXSUB 0xF x 0x33
  | .ldMemVx x => encodeXSUB 0xF x 0x55
  | .ldVxMem x => encodeXSUB 0xF x 0x65

end Sys2Proof
end

