-- ==== Sys2Proof/Config.lean ====
section
/-! DEFINITION. What an implementation fixes (00_scope.md R8) and the one free value of the model, the random byte of CXkk. -/

namespace Sys2Proof.Config

/-- MEM_SIZE: addresses 0x000..0xFFF (00_scope.md R8, 20_memory.md R50). -/
def memSize : Nat := 4096

/-- PROG_BASE: where a program image is loaded and where PC starts (00_scope.md R8, 10_state.md R40). -/
def progBase : Nat := 0x200

/-- MAX_ROM_LEN = 4096 - 0x200 (00_scope.md R8, 70_reset_and_hazards.md R240). -/
def maxRomLen : Nat := 3584

/-- FONT_BASE (00_scope.md R8, 42_index_memory.md R152). -/
def fontBase : Nat := 0x000

/-- FONT_GLYPH_BYTES (00_scope.md R8). -/
def glyphBytes : Nat := 5

/-- The length of FONT_DATA: 16 glyphs of 5 bytes (10_state.md R41). -/
def fontLen : Nat := 80

/-- The reference value of the parameter STACK_DEPTH (00_scope.md R8). DESIGN CHOICE, log 4: the value State.reset takes;
every claim about an arbitrary state is for every depth. -/
def refStackDepth : Nat := 24

/-- The least STACK_DEPTH the spec allows (00_scope.md R8). -/
def minStackDepth : Nat := 16

/-- The reference value of the host's STEPS_PER_FRAME (00_scope.md R8, 60_exceptions.md R226). -/
def stepsPerFrame : Nat := 8

/-- The default of the parameter FONT_DATA: the conventional hexadecimal font, glyph d at 5·d (10_state.md R41, 93 G1).
PRESUMED, log 5: the spec takes these bytes from general knowledge. -/
def fontData : List Byte := [
  0xF0, 0x90, 0x90, 0x90, 0xF0,
  0x20, 0x60, 0x20, 0x20, 0x70,
  0xF0, 0x10, 0xF0, 0x80, 0xF0,
  0xF0, 0x10, 0xF0, 0x10, 0xF0,
  0x90, 0x90, 0xF0, 0x10, 0x10,
  0xF0, 0x80, 0xF0, 0x10, 0xF0,
  0xF0, 0x80, 0xF0, 0x90, 0xF0,
  0xF0, 0x10, 0x20, 0x40, 0x40,
  0xF0, 0x90, 0xF0, 0x90, 0xF0,
  0xF0, 0x90, 0xF0, 0x10, 0xF0,
  0xF0, 0x90, 0xF0, 0x90, 0x90,
  0xE0, 0x90, 0xE0, 0x90, 0xE0,
  0xF0, 0x80, 0x80, 0x80, 0xF0,
  0xE0, 0x90, 0x90, 0x90, 0xE0,
  0xF0, 0x80, 0xF0, 0x80, 0xF0,
  0xF0, 0x80, 0xF0, 0x80, 0x80]

/-- The random byte of the n-th CXkk executed: a FREE VALUE with no body (41_alu.md R132, 92 D18; log 3). A model takes the
draw as unconstrained, so nothing can be proved of it but that it is a byte. -/
opaque randomByte : Nat → Byte

end Sys2Proof.Config
end

