-- ==== Sys2Proof/Machine/State.lean ====
section
/-! DEFINITION. The architectural state of the core (10_state.md R35) as plain data, its fault record (60_exceptions.md R201), the refusals of the host boundary, and the state after reset (10_state.md R40). -/

namespace Sys2Proof.Machine

/-- What an access to memory was for (20_memory.md R55). -/
inductive AccessKind where
  | fetch
  | read
  | write
  deriving DecidableEq, Repr

/-- The fatal faults (60_exceptions.md R201), each with the info the rule records; `pc` is the address the instruction was
fetched from. A step that raises one answers a NEXT state whose latch (`State.fault`) holds the record (R205, R206), so the
outcome `Host.Outcome.fault` is raised by no step of this model (log 1). -/
inductive Fault where
  /-- Code 1. Raised by 2nnn when the stack holds STACK_DEPTH entries (40_control_flow.md R102). Safe: the spec's own fault. -/
  | stackOverflow (depth : Nat) (pc : Word)
  /-- Code 2. Raised by 00EE on an empty stack, `depth` = 0 (40_control_flow.md R100). Safe: the spec's own fault. -/
  | stackUnderflow (depth : Nat) (pc : Word)
  /-- Code 3. Raised by the fetch, DXYN, FX33, FX55 and FX65 on an access outside [0, 4096); `addr` is the lowest address out
  of bounds (20_memory.md R55, R56). Safe: the spec's own fault. -/
  | memoryOutOfBounds (kind : AccessKind) (addr : Nat) (pc : Word)
  /-- Code 4. Raised by EX9E and EXA1 when VX is 16 or more (44_keys_timers.md R182). Safe: the model stops where a lenient
  core might go on (92 D15, log 12). -/
  | keyIndexOutOfRange (key : Byte) (pc : Word)
  deriving DecidableEq, Repr

/-- Why the model gives no transition. No instruction raises one; the last three are raised at the host boundary
(Machine/HostOps.lean), where the spec refuses the operation. -/
inductive Refusal where
  /-- Raised by an arm of exec that has no meaning yet; there is none. Safe. -/
  | notModelled (mnemonic : String)
  /-- Raised by press(k) and release(k) with k >= 16 (60_exceptions.md R222). Safe: the spec's own refusal. -/
  | keyOutOfRange (key : Nat)
  /-- Raised by get_pixel(x, y) outside the 64x32 grid (60_exceptions.md R224). Safe: the spec's own refusal. -/
  | pixelOutOfRange (x y : Nat)
  /-- Raised by reset(rom) with a ROM longer than 3584 bytes (70_reset_and_hazards.md R241). Safe: the spec's own refusal. -/
  | romTooLarge (len : Nat)
  deriving DecidableEq, Repr

/-- The parameters of the core (00_scope.md R8): arguments of the model, changed by no operation (10_state.md R35; logs 4, 5). -/
structure Params where
  /-- STACK_DEPTH, at least 16. -/
  stackDepth : Nat
  /-- FONT_DATA, 80 bytes (10_state.md R41). -/
  fontData : List Byte
  deriving DecidableEq, Repr

/-- Memory as the cells that differ from the reset contents, in rising order of address (log 23). -/
abbrev Memory := List Host.Cell

/-- The framebuffer FB[x][y]: 64 columns of 32 one-bit pixels (10_state.md R30). -/
abbrev Framebuffer := Vector (Vector Bool 32) 64

/-- The state of the core (10_state.md R35), and after it the model's own fields: the parameters, which the spec makes
arguments of the model, and the counter of random draws. -/
structure State where
  /-- V0..VF (10_state.md R20). -/
  v : Vector Byte 16
  /-- The index register I (10_state.md R25). -/
  i : Word
  /-- The program counter PC (10_state.md R23). -/
  pc : Word
  /-- The call stack, last element the top (10_state.md R26, 00_scope.md R11). -/
  stack : List Word
  /-- The delay timer DT (10_state.md R27). -/
  dt : Byte
  /-- The sound timer ST (10_state.md R28). -/
  st : Byte
  /-- Keys[0..15], true meaning pressed (10_state.md R29). -/
  keys : Vector Bool 16
  /-- FB[x][y], true meaning set (10_state.md R30). -/
  fb : Framebuffer
  /-- Mem[0..4095] (10_state.md R31, 20_memory.md R50). -/
  mem : Memory
  /-- The fault latch (10_state.md R33, 60_exceptions.md R206). -/
  fault : Option Fault
  /-- STACK_DEPTH and FONT_DATA (00_scope.md R8). The model's own field (logs 4, 5). -/
  params : Params
  /-- How many random bytes have been drawn (41_alu.md R132). The model's own field (log 3). -/
  draws : Nat
  deriving DecidableEq, Repr

/-- The reference parameters: STACK_DEPTH 24 (DESIGN CHOICE, log 4) and the conventional font (PRESUMED, log 5). -/
def Params.reference : Params := { stackDepth := Config.refStackDepth, fontData := Config.fontData }

/-- The machine right after reset (10_state.md R40) with an empty program image (log 9) and the reference parameters: memory
lists no cell, so every address reads as its reset contents. Register, timer, key and pixel values: logs 6 to 8. -/
def State.reset : State where
  v := Vector.replicate 16 0
  i := 0
  pc := 0x200
  stack := []
  dt := 0
  st := 0
  keys := Vector.replicate 16 false
  fb := Vector.replicate 64 (Vector.replicate 32 false)
  mem := []
  fault := none
  params := Params.reference
  draws := 0

end Sys2Proof.Machine
end

