-- ==== Sys2Proof/Machine/Ops.lean ====
section
/-! DEFINITION. The named operations over memory, registers, the program counter, the stack, the framebuffer and the fault latch. Each access primitive of 20_memory.md R53 to R56 is here once, and raising a fault is the one operation takeFault (60_exceptions.md R205, R206). -/

namespace Sys2Proof.Machine

/-! ### Memory -/

/-- What an address that lists no cell reads as: the reset contents, the font below 0x050 and zero above (10_state.md R40;
logs 5, 8, 23). -/
def unlisted (a : Nat) : Byte := (Config.fontData[a]?).getD 0

/-- The byte Mem[a] (00_scope.md R11). -/
def Memory.cell : Memory → Nat → Byte
  | [], a => unlisted a
  | (b, w) :: m, a => if b = a then w else Memory.cell m a

/-- Memory with no cell listed at a, so that a reads as its reset contents. -/
def Memory.erase : Memory → Nat → Memory
  | [], _ => []
  | (b, w) :: m, a => if b = a then Memory.erase m a else (b, w) :: Memory.erase m a

/-- A cell put at its place in the rising order. -/
def Memory.insert : Memory → Nat → Byte → Memory
  | [], a, x => [(a, x)]
  | (b, w) :: m, a, x => if a < b then (a, x) :: (b, w) :: m else (b, w) :: Memory.insert m a x

/-- Mem[a] <- x (00_scope.md R11) in the canonical form: a byte equal to the reset contents is not listed (log 23). -/
def Memory.put (m : Memory) (a : Nat) (x : Byte) : Memory :=
  if x = unlisted a then m.erase a else (m.erase a).insert a x

/-- The canonical form from address `lo` on: addresses strictly rising, inside the address space, and no cell equal to what
an unlisted address reads as. -/
def Memory.wfFrom : Nat → Memory → Bool
  | _, [] => true
  | lo, (a, x) :: m => decide (lo ≤ a) && decide (a < Config.memSize) && decide (x ≠ unlisted a) && Memory.wfFrom (a + 1) m

/-- The canonical form of memory (log 23). -/
def Memory.wf (m : Memory) : Bool := m.wfFrom 0

/-- MemRead(a, 1): the byte at a, or the out-of-bounds address (20_memory.md R53). -/
def memRead (m : Memory) (a : Nat) : Except Nat Byte :=
  if a < Config.memSize then .ok (m.cell a) else .error a

/-- MemWrite(a, 1, x): memory with x at a, or the out-of-bounds address (20_memory.md R54). -/
def memWrite (m : Memory) (a : Nat) (x : Byte) : Except Nat Memory :=
  if a < Config.memSize then .ok (m.put a x) else .error a

/-- CheckRange(a, n, _): whether n bytes from a are in bounds, or the lowest address that is not; with n = 0 nothing is
checked (20_memory.md R55). -/
def checkRange (a n : Nat) : Except Nat Unit :=
  if n = 0 then .ok ()
  else if a + n - 1 ≥ Config.memSize then .error (max a Config.memSize)
  else .ok ()

/-- The n bytes from a, one MemRead after another. -/
def readBytes (m : Memory) (a : Nat) : Nat → Except Nat (List Byte)
  | 0 => .ok []
  | n + 1 =>
    match memRead m a, readBytes m (a + 1) n with
    | .ok b, .ok bs => .ok (b :: bs)
    | .error e, _ => .error e
    | _, .error e => .error e

/-- The bytes written from a on, one MemWrite after another. -/
def writeBytes (m : Memory) (a : Nat) : List Byte → Except Nat Memory
  | [] => .ok m
  | b :: bs =>
    match memWrite m a b with
    | .ok m' => writeBytes m' (a + 1) bs
    | .error e => .error e

/-- A run of n bytes read from a, checked as a whole before the first access (20_memory.md R55, R60). -/
def readRun (m : Memory) (a n : Nat) : Except Nat (List Byte) :=
  match checkRange a n with
  | .ok () => readBytes m a n
  | .error e => .error e

/-- A run of bytes written from a, checked as a whole before the first access (20_memory.md R55, R60). -/
def writeRun (m : Memory) (a : Nat) (bs : List Byte) : Except Nat Memory :=
  match checkRange a bs.length with
  | .ok () => writeBytes m a bs
  | .error e => .error e

/-- Fetch16(a): two bytes, big-endian (20_memory.md R56). -/
def fetch16 (m : Memory) (a : Nat) : Except Nat Word :=
  match readRun m a 2 with
  | .ok (hi :: lo :: _) => .ok (wordOfBytes hi lo)
  | .ok _ => .error a
  | .error e => .error e

/-! ### Faults -/

/-- The code of a fault (60_exceptions.md R201; the numbering is the spec's own, log 19). -/
def Fault.code : Fault → Nat
  | .stackOverflow _ _ => 1
  | .stackUnderflow _ _ => 2
  | .memoryOutOfBounds _ _ _ => 3
  | .keyIndexOutOfRange _ _ => 4

/-- The address the faulting instruction was fetched from (60_exceptions.md R201). -/
def Fault.pc : Fault → Word
  | .stackOverflow _ pc => pc
  | .stackUnderflow _ pc => pc
  | .memoryOutOfBounds _ _ pc => pc
  | .keyIndexOutOfRange _ pc => pc

/-- TAKING A FAULT: the record is latched with the address of the faulting instruction, PC holds that address, and nothing
else changes (30_encoding.md R79; 60_exceptions.md R205, R206). There is no return from it but reset (R209). -/
def State.takeFault (s : State) (at_ : Word) (f : Word → Fault) : State :=
  { s with pc := at_, fault := some (f at_) }

/-- `raise F(info)` in the execute phase (00_scope.md R13): PC has been advanced past the instruction by 2, and the fault
undoes that (60_exceptions.md R205). -/
def State.raise (s : State) (f : Word → Fault) : State := s.takeFault (s.pc - 2) f

/-! ### Program counter -/

/-- PC <- (PC + 2) mod 65536, the fetch increment (30_encoding.md R80). -/
def State.advance (s : State) : State := { s with pc := s.pc + 2 }

/-- The skip: 2 more when the condition holds (40_control_flow.md R108). -/
def State.skipIf (s : State) (c : Bool) : State := if c then { s with pc := s.pc + 2 } else s

/-- PC <- target (00_scope.md R11). -/
def State.jump (s : State) (target : Word) : State := { s with pc := target }

/-- PC <- PC - 2, back to this instruction (44_keys_timers.md R184). -/
def State.retract (s : State) : State := { s with pc := s.pc - 2 }

/-! ### General registers -/

/-- V[x] (00_scope.md R11). -/
def State.reg (s : State) (x : Reg) : Byte := s.v[x]

/-- V[x] <- b (00_scope.md R11). -/
def State.setReg (s : State) (x : Reg) (b : Byte) : State := { s with v := s.v.set x b }

/-- [V[0], ..., V[x]] (42_index_memory.md R154). -/
def State.regsTo (s : State) (x : Reg) : List Byte := s.v.toList.take (x.val + 1)

/-- V[j] <- bytes[j] for every j there is a byte for (42_index_memory.md R155). -/
def State.loadRegs (s : State) (bytes : List Byte) : State :=
  { s with v := Vector.ofFn fun j : Reg => (bytes[j.val]?).getD s.v[j] }

/-! ### Call stack -/

/-- Stack <- Stack ++ [a], or StackOverflow when STACK_DEPTH entries are held (40_control_flow.md R102). A stack longer than
that, which no run reaches, counts as full (log 22). -/
def State.push (s : State) (a : Word) : Except (Word → Fault) State :=
  if s.stack.length ≥ s.params.stackDepth then .error (.stackOverflow s.params.stackDepth)
  else .ok { s with stack := s.stack ++ [a] }

/-- The most recent push and the stack without it, or StackUnderflow on an empty stack (40_control_flow.md R100). -/
def State.pop (s : State) : Except (Word → Fault) (Word × State) :=
  match s.stack.getLast? with
  | none => .error (.stackUnderflow 0)
  | some t => .ok (t, { s with stack := s.stack.dropLast })

/-! ### Memory as the instructions use it -/

/-- A read of n bytes from a: the state that the bytes give, or MemoryOutOfBounds(read) (20_memory.md R55). -/
def State.withRead (s : State) (a n : Nat) (use : List Byte → State) : State :=
  match readRun s.mem a n with
  | .ok bytes => use bytes
  | .error addr => s.raise (.memoryOutOfBounds .read addr)

/-- A write of bytes from a, or MemoryOutOfBounds(write) with nothing written (20_memory.md R55). -/
def State.store (s : State) (a : Nat) (bytes : List Byte) : State :=
  match writeRun s.mem a bytes with
  | .ok m => { s with mem := m }
  | .error addr => s.raise (.memoryOutOfBounds .write addr)

/-! ### Framebuffer -/

/-- FB[x][y] (10_state.md R30). -/
def Framebuffer.pixel (fb : Framebuffer) (x : Fin 64) (y : Fin 32) : Bool := fb[x][y]

/-- FB[x][y] <- b (10_state.md R30). -/
def Framebuffer.setPixel (fb : Framebuffer) (x : Fin 64) (y : Fin 32) (b : Bool) : Framebuffer :=
  fb.set x (fb[x].set y b)

/-- Every pixel false (43_display.md R170). -/
def Framebuffer.clear : Framebuffer := Vector.replicate 64 (Vector.replicate 32 false)

/-- One cell of a draw: new = s XOR old, and the flag is set when a set pixel is cleared (43_display.md R171). -/
def drawPixel (p : Framebuffer × Bool) (x : Fin 64) (y : Fin 32) (bit : Bool) : Framebuffer × Bool :=
  let old := p.1.pixel x y
  let new := bit ^^ old
  (p.1.setPixel x y new, p.2 || (old && !new))

/-- One row of a draw: for j in 0..7 the column (x0 + j) mod 64 takes bit 7 - j (43_display.md R171). -/
def drawRow (p : Framebuffer × Bool) (x0 : Nat) (row : Fin 32) (byte : Byte) : Framebuffer × Bool :=
  (List.range 8).foldl (fun q j => drawPixel q (Fin.ofNat 64 (x0 + j)) row (byte.getLsbD (7 - j))) p

/-- The rows of a sprite from y0 on, row (y0 + i) mod 32 for byte i (43_display.md R171). -/
def drawSprite (p : Framebuffer × Bool) (x0 y0 : Nat) : List Byte → Framebuffer × Bool
  | [] => p
  | byte :: rest => drawSprite (drawRow p x0 (Fin.ofNat 32 y0) byte) x0 (y0 + 1) rest

end Sys2Proof.Machine
end

