-- ==== Sys2Proof/Machine/Flags.lean ====
section
/-! DEFINITION. The flag values VF takes and the order in which an ALU instruction writes its result and its flag (10_state.md R21, 41_alu.md R133). -/

namespace Sys2Proof.Machine

/-- bool(c): 1 when the condition holds, else 0 (00_scope.md R10). -/
def flagByte (c : Bool) : Byte := if c then 1 else 0

/-- The carry out of bit 7 of a sum (41_alu.md R127). -/
def carryFlag (a b : Byte) : Bool := decide (a.toNat + b.toNat > 255)

/-- No borrow in a - b (41_alu.md R128, R130). -/
def noBorrowFlag (a b : Byte) : Bool := decide (a.toNat ≥ b.toNat)

/-- The bit a right shift shifts out, bit 0 before the shift (41_alu.md R129). -/
def lowBitFlag (a : Byte) : Bool := a.getLsbD 0

/-- The bit a left shift shifts out, bit 7 before the shift (41_alu.md R131). -/
def highBitFlag (a : Byte) : Bool := a.getLsbD 7

/-- V[F] <- bool(c). -/
def State.setFlag (s : State) (c : Bool) : State := s.setReg Reg.vf (flagByte c)

/-- The result to V[X] first, the flag to V[F] last, so that X = F ends with the flag (41_alu.md R133; log 10). -/
def State.setResultFlag (s : State) (x : Reg) (result : Byte) (c : Bool) : State := (s.setReg x result).setFlag c

/-- (a + b) mod 256 (41_alu.md R122, R127). -/
def sumByte (a b : Byte) : Byte := BitVec.ofNat 8 (a.toNat + b.toNat)

/-- (a - b) mod 256, subtracted in the integers and then reduced (41_alu.md R128, R130). -/
def diffByte (a b : Byte) : Byte := BitVec.ofInt 8 ((a.toNat : Int) - (b.toNat : Int))

/-- a >> 1, zero shifted in (41_alu.md R129). -/
def shiftRightByte (a : Byte) : Byte := a >>> 1

/-- (a * 2) mod 256 (41_alu.md R131). -/
def shiftLeftByte (a : Byte) : Byte := BitVec.ofNat 8 (a.toNat * 2)

end Sys2Proof.Machine
end

