-- ==== Sys2Proof/Machine/Operands.lean ====
section
/-! DEFINITION. The operand forms: the values an instruction computes from its fields and the state before it writes anything (00_scope.md R14). -/

namespace Sys2Proof.Machine

/-- The base of a memory access, I as a natural number: `I + j` never wraps (20_memory.md R60, log 26). -/
def State.base (s : State) : Nat := s.i.toNat

/-- The target of Bnnn, nnn + V0, not reduced modulo 4096 (40_control_flow.md R107). -/
def indexedTarget (nnn : Word) (v0 : Byte) : Word := BitVec.ofNat 16 (nnn.toNat + v0.toNat)

/-- (I + VX) mod 65536 (42_index_memory.md R151). -/
def indexSum (i : Word) (vx : Byte) : Word := BitVec.ofNat 16 (i.toNat + vx.toNat)

/-- FONT_BASE + 5 * VX, unmasked (42_index_memory.md R152, log 13). -/
def glyphAddress (vx : Byte) : Word := BitVec.ofNat 16 (Config.fontBase + Config.glyphBytes * vx.toNat)

/-- The decimal digits, hundreds first (42_index_memory.md R153). -/
def bcdDigits (vx : Byte) : List Byte :=
  [BitVec.ofNat 8 (vx.toNat / 100), BitVec.ofNat 8 (vx.toNat / 10 % 10), BitVec.ofNat 8 (vx.toNat % 10)]

/-- The key a register names, or KeyIndexOutOfRange when it is 16 or more (44_keys_timers.md R182, log 12). -/
def keyIndex (k : Byte) : Except (Word → Fault) (Fin 16) :=
  if h : k.toNat < 16 then .ok ⟨k.toNat, h⟩ else .error (.keyIndexOutOfRange k)

/-- The lowest-indexed pressed key, none when no key is pressed (44_keys_timers.md R184). -/
def lowestPressed (keys : Vector Bool 16) : Option (Fin 16) :=
  (List.finRange 16).find? fun k => keys[k]

/-- The random byte this execution draws, a free value (41_alu.md R132, log 3). -/
def State.draw (s : State) : Byte := Config.randomByte s.draws

end Sys2Proof.Machine
end

