-- ==== Sys2Proof/Machine/Alu.lean ====
section
/-! DEFINITION. Register loads, the ALU and the random byte (41_alu.md R120 to R134). No other state than the general registers changes, and none of these instructions faults. -/

namespace Sys2Proof.Machine

/-- LD VX, kk (41_alu.md R121). -/
def execLdImm (x : Reg) (kk : Byte) (s : State) : Host.Outcome State Fault Refusal := .next (s.setReg x kk)

/-- ADD VX, kk (41_alu.md R122): no flag. -/
def execAddImm (x : Reg) (kk : Byte) (s : State) : Host.Outcome State Fault Refusal :=
  .next (s.setReg x (sumByte (s.reg x) kk))

/-- LD VX, VY (41_alu.md R123). -/
def execLdReg (x y : Reg) (s : State) : Host.Outcome State Fault Refusal := .next (s.setReg x (s.reg y))

/-- OR VX, VY (41_alu.md R124): no flag. -/
def execOr (x y : Reg) (s : State) : Host.Outcome State Fault Refusal := .next (s.setReg x (s.reg x ||| s.reg y))

/-- AND VX, VY (41_alu.md R125): no flag. -/
def execAnd (x y : Reg) (s : State) : Host.Outcome State Fault Refusal := .next (s.setReg x (s.reg x &&& s.reg y))

/-- XOR VX, VY (41_alu.md R126): no flag. -/
def execXor (x y : Reg) (s : State) : Host.Outcome State Fault Refusal := .next (s.setReg x (s.reg x ^^^ s.reg y))

/-- ADD VX, VY (41_alu.md R127): VF is the carry. -/
def execAddReg (x y : Reg) (s : State) : Host.Outcome State Fault Refusal :=
  .next (s.setResultFlag x (sumByte (s.reg x) (s.reg y)) (carryFlag (s.reg x) (s.reg y)))

/-- SUB VX, VY (41_alu.md R128): VF is 1 when VX >= VY. -/
def execSub (x y : Reg) (s : State) : Host.Outcome State Fault Refusal :=
  .next (s.setResultFlag x (diffByte (s.reg x) (s.reg y)) (noBorrowFlag (s.reg x) (s.reg y)))

/-- SHR VX (41_alu.md R129): VX only, Y is not used (30_encoding.md R78). -/
def execShr (x _y : Reg) (s : State) : Host.Outcome State Fault Refusal :=
  .next (s.setResultFlag x (shiftRightByte (s.reg x)) (lowBitFlag (s.reg x)))

/-- SUBN VX, VY (41_alu.md R130): VY - VX, VF is 1 when VY >= VX. -/
def execSubn (x y : Reg) (s : State) : Host.Outcome State Fault Refusal :=
  .next (s.setResultFlag x (diffByte (s.reg y) (s.reg x)) (noBorrowFlag (s.reg y) (s.reg x)))

/-- SHL VX (41_alu.md R131): VX only, Y is not used (30_encoding.md R78). -/
def execShl (x _y : Reg) (s : State) : Host.Outcome State Fault Refusal :=
  .next (s.setResultFlag x (shiftLeftByte (s.reg x)) (highBitFlag (s.reg x)))

/-- RND VX, kk (41_alu.md R132): the draw is a free value and the counter moves on to the next draw (log 3). -/
def execRnd (x : Reg) (kk : Byte) (s : State) : Host.Outcome State Fault Refusal :=
  .next { s.setReg x (s.draw &&& kk) with draws := s.draws + 1 }

end Sys2Proof.Machine
end

