-- ==== Sys2Proof/Machine/Control.lean ====
section
/-! DEFINITION. Control transfer (40_control_flow.md R100 to R109). Every meaning starts from the state after the fetch increment, so PC is the address of the instruction plus 2 (30_encoding.md R80). -/

namespace Sys2Proof.Machine

/-- RET (40_control_flow.md R100). -/
def execRet (s : State) : Host.Outcome State Fault Refusal :=
  match s.pop with
  | .ok (t, s') => .next (s'.jump t)
  | .error f => .next (s.raise f)

/-- JP nnn (40_control_flow.md R101). -/
def execJp (nnn : Word) (s : State) : Host.Outcome State Fault Refusal := .next (s.jump nnn)

/-- CALL nnn (40_control_flow.md R102): PC is already the address of the next instruction. -/
def execCall (nnn : Word) (s : State) : Host.Outcome State Fault Refusal :=
  match s.push s.pc with
  | .ok s' => .next (s'.jump nnn)
  | .error f => .next (s.raise f)

/-- SE VX, kk (40_control_flow.md R103). -/
def execSeImm (x : Reg) (kk : Byte) (s : State) : Host.Outcome State Fault Refusal :=
  .next (s.skipIf (s.reg x == kk))

/-- SNE VX, kk (40_control_flow.md R104). -/
def execSneImm (x : Reg) (kk : Byte) (s : State) : Host.Outcome State Fault Refusal :=
  .next (s.skipIf (s.reg x != kk))

/-- SE VX, VY (40_control_flow.md R105). -/
def execSeReg (x y : Reg) (s : State) : Host.Outcome State Fault Refusal :=
  .next (s.skipIf (s.reg x == s.reg y))

/-- SNE VX, VY (40_control_flow.md R106). -/
def execSneReg (x y : Reg) (s : State) : Host.Outcome State Fault Refusal :=
  .next (s.skipIf (s.reg x != s.reg y))

/-- JP V0, nnn (40_control_flow.md R107). -/
def execJpV0 (nnn : Word) (s : State) : Host.Outcome State Fault Refusal :=
  .next (s.jump (indexedTarget nnn (s.reg 0)))

end Sys2Proof.Machine
end

