-- ==== Sys2Proof/Machine/Display.lean ====
section
/-! DEFINITION. The framebuffer instructions (43_display.md R170 to R173). -/

namespace Sys2Proof.Machine

/-- CLS (43_display.md R170). -/
def execCls (s : State) : Host.Outcome State Fault Refusal := .next { s with fb := Framebuffer.clear }

/-- The state after the sprite bytes have been drawn at (x0, y0): the framebuffer, then VF as the collision flag, written
last (43_display.md R171, 90 C11). -/
def State.drawAt (s : State) (x0 y0 : Nat) (sprite : List Byte) : State :=
  let p := drawSprite (s.fb, false) x0 y0 sprite
  { s with fb := p.1 }.setFlag p.2

/-- DRW VX, VY, N (43_display.md R171): the coordinates and the sprite are read before VF is written. -/
def execDrw (x y : Reg) (n : Nat) (s : State) : Host.Outcome State Fault Refusal :=
  .next (s.withRead s.base n (s.drawAt (s.reg x).toNat (s.reg y).toNat))

end Sys2Proof.Machine
end

