-- ==== Sys2Proof/Machine/Index.lean ====
section
/-! DEFINITION. The index register and the memory instructions (42_index_memory.md R150 to R155). A memory access is checked as a whole before its first byte, and no instruction here moves I by itself. -/

namespace Sys2Proof.Machine

/-- LD I, nnn (42_index_memory.md R150). -/
def execLdI (nnn : Word) (s : State) : Host.Outcome State Fault Refusal := .next { s with i := nnn }

/-- ADD I, VX (42_index_memory.md R151): no flag. -/
def execAddIVx (x : Reg) (s : State) : Host.Outcome State Fault Refusal :=
  .next { s with i := indexSum s.i (s.reg x) }

/-- LD F, VX (42_index_memory.md R152). -/
def execLdFVx (x : Reg) (s : State) : Host.Outcome State Fault Refusal :=
  .next { s with i := glyphAddress (s.reg x) }

/-- LD B, VX (42_index_memory.md R153). -/
def execLdBVx (x : Reg) (s : State) : Host.Outcome State Fault Refusal :=
  .next (s.store s.base (bcdDigits (s.reg x)))

/-- LD [I], VX (42_index_memory.md R154). -/
def execLdMemVx (x : Reg) (s : State) : Host.Outcome State Fault Refusal :=
  .next (s.store s.base (s.regsTo x))

/-- LD VX, [I] (42_index_memory.md R155). -/
def execLdVxMem (x : Reg) (s : State) : Host.Outcome State Fault Refusal :=
  .next (s.withRead s.base (x.val + 1) s.loadRegs)

end Sys2Proof.Machine
end

