-- ==== Sys2Proof/Machine/KeysTimers.lean ====
section
/-! DEFINITION. The keypad and timer instructions (44_keys_timers.md R180 to R186). They only read the keys, and load or read the timers. -/

namespace Sys2Proof.Machine

/-- SKP VX (44_keys_timers.md R180). -/
def execSkp (x : Reg) (s : State) : Host.Outcome State Fault Refusal :=
  match keyIndex (s.reg x) with
  | .ok k => .next (s.skipIf s.keys[k])
  | .error f => .next (s.raise f)

/-- SKNP VX (44_keys_timers.md R181). -/
def execSknp (x : Reg) (s : State) : Host.Outcome State Fault Refusal :=
  match keyIndex (s.reg x) with
  | .ok k => .next (s.skipIf (!s.keys[k]))
  | .error f => .next (s.raise f)

/-- LD VX, DT (44_keys_timers.md R183). -/
def execLdVxDt (x : Reg) (s : State) : Host.Outcome State Fault Refusal := .next (s.setReg x s.dt)

/-- LD VX, K (44_keys_timers.md R184): the lowest pressed key, or back to this instruction. -/
def execLdVxK (x : Reg) (s : State) : Host.Outcome State Fault Refusal :=
  match lowestPressed s.keys with
  | some k => .next (s.setReg x (BitVec.ofNat 8 k.val))
  | none => .next s.retract

/-- LD DT, VX (44_keys_timers.md R185). -/
def execLdDtVx (x : Reg) (s : State) : Host.Outcome State Fault Refusal := .next { s with dt := s.reg x }

/-- LD ST, VX (44_keys_timers.md R186). -/
def execLdStVx (x : Reg) (s : State) : Host.Outcome State Fault Refusal := .next { s with st := s.reg x }

end Sys2Proof.Machine
end

