-- ==== Sys2Proof/Machine/Cycle.lean ====
section
/-! DEFINITION. The step cycle of 30_encoding.md R79 with the outcome it reports to the host (60_exceptions.md R201), the unknown-opcode no-op (R82), and placing an instruction where the next step fetches. -/

namespace Sys2Proof.Machine

/-- A non-fatal event (60_exceptions.md R201, code 16): the raw nibbles of the word and the address it was fetched from
(30_encoding.md R82). -/
inductive Event where
  | unknownOpcode (n0 n1 n2 n3 : BitVec 4) (pc : Word)
  deriving DecidableEq, Repr

/-- The code of an event (60_exceptions.md R201). -/
def Event.code : Event → Nat
  | .unknownOpcode _ _ _ _ _ => 16

/-- The outcome of a step as the host sees it (60_exceptions.md R201). It is an output of the step and no state (R35; log 2). -/
inductive Report where
  /-- Ok. -/
  | ok
  /-- Event(UnknownOpcode, info). -/
  | event (e : Event)
  /-- Fault(kind, info): this step raised it. -/
  | fault (f : Fault)
  /-- Faulted(latched fault): the core was already faulted and the step did nothing. -/
  | faulted (f : Fault)
  deriving DecidableEq, Repr

/-- Unknown(op) in the execute phase: no state change beyond the advanced PC (30_encoding.md R82). -/
def execUnknown (s : State) : State := s

/-- The event of an unknown word; PC has been advanced, so the word was fetched at PC - 2 (30_encoding.md R82). -/
def unknownEvent (op : Word) (s : State) : Event :=
  .unknownOpcode (nibble0 op) (nibble1 op) (nibble2 op) (nibble3 op) (s.pc - 2)

/-- What a completed execute phase reports: the fault it latched, or Ok. -/
def reportOf (s : State) : Report :=
  match s.fault with
  | none => .ok
  | some f => .fault f

/-- The execute phase of a fetched word, from the state after the fetch increment (30_encoding.md R79, R81). -/
def executeWord (op : Word) (s : State) : Host.Outcome (State × Report) Fault Refusal :=
  match decodeWord op with
  | .unknown w => .next (execUnknown s, .event (unknownEvent w s))
  | .instr i =>
    match exec i s with
    | .next s' => .next (s', reportOf s')
    | .fault f => .fault f
    | .refused r => .refused r

/-- step(s) -> (s', outcome) (30_encoding.md R79). A latched fault comes first, then the fetch, then the instruction
(60_exceptions.md R208). -/
def stepReport (s : State) : Host.Outcome (State × Report) Fault Refusal :=
  match s.fault with
  | some f => .next (s, .faulted f)
  | none =>
    match fetch16 s.mem s.pc.toNat with
    | .error addr =>
      let s' := s.takeFault s.pc (.memoryOutOfBounds .fetch addr)
      .next (s', reportOf s')
    | .ok op => executeWord op s.advance

/-- The state part of an outcome with a report. -/
def dropReport : Host.Outcome (State × Report) Fault Refusal → Host.Outcome State Fault Refusal
  | .next (s, _) => .next s
  | .fault f => .fault f
  | .refused r => .refused r

/-- Where the next step fetches: PC, or PROG_BASE for a PC from which no word can be fetched (log 9). -/
def State.fetchAddress (s : State) : Word := if s.pc.toNat + 1 < Config.memSize then s.pc else BitVec.ofNat 16 Config.progBase

/-- s with the word op placed where the next step fetches it, and no latched fault to stop that step (log 9). -/
def State.placeWord (s : State) (op : Word) : State :=
  let a := s.fetchAddress
  { s with
    pc := a
    mem := (s.mem.put a.toNat (highByte op)).put (a.toNat + 1) (lowByte op)
    fault := none }

end Sys2Proof.Machine
end

