-- ==== Sys2Proof/Machine/Step.lean ====
section
/-! DEFINITION. One step of the machine, the state part of the step cycle, and the placement of an instruction word where the next step fetches. -/

namespace Sys2Proof.Machine

/-- One step (30_encoding.md R79): fetch, PC + 2, decode, execute. Its outcome for the host is `stepReport`'s (log 2). -/
def step (s : State) : Host.Outcome State Fault Refusal := dropReport (stepReport s)

/-- s with the instruction whose bits are w, numbered as spec/opcode_table.json numbers them, where step fetches next: one
16-bit word, high byte first (20_memory.md R56, log 9). -/
def State.withFetchWord (s : State) (nbits w : Nat) : State := s.placeWord (BitVec.ofNat 16 (w % 2 ^ nbits))

end Sys2Proof.Machine
end

