-- ==== Sys2Proof/Machine/HostOps.lean ====
section
/-! DEFINITION. The operations of the block as the host performs them (60_exceptions.md R220 to R226; 70_reset_and_hazards.md R240 to R243), each one atomic transaction, and schedules of them. -/

namespace Sys2Proof.Machine

/-- tick_delay(): DT - 1, saturating at 0 (60_exceptions.md R220). -/
def State.tickDelay (s : State) : State := if s.dt.toNat > 0 then { s with dt := s.dt - 1 } else s

/-- tick_sound(): ST - 1, saturating at 0 (60_exceptions.md R220). -/
def State.tickSound (s : State) : State := if s.st.toNat > 0 then { s with st := s.st - 1 } else s

/-- Keys[k] <- b for a key inside the pad; the host boundary refuses any other (60_exceptions.md R222). -/
def State.setKey (s : State) (k : Nat) (b : Bool) : Host.Outcome State Fault Refusal :=
  if h : k < 16 then .next { s with keys := s.keys.set k b h } else .refused (.keyOutOfRange k)

/-- press(k) (60_exceptions.md R222). -/
def State.press (s : State) (k : Nat) : Host.Outcome State Fault Refusal := s.setKey k true

/-- release(k) (60_exceptions.md R222). -/
def State.release (s : State) (k : Nat) : Host.Outcome State Fault Refusal := s.setKey k false

/-- is_sound_active(): ST > 0 (60_exceptions.md R223). -/
def State.isSoundActive (s : State) : Bool := decide (s.st.toNat > 0)

/-- get_pixel(x, y), refused outside the grid (60_exceptions.md R224). -/
def State.getPixel (s : State) (x y : Nat) : Except Refusal Bool :=
  if h : x < 64 ∧ y < 32 then .ok (s.fb.pixel ⟨x, h.1⟩ ⟨y, h.2⟩) else .error (.pixelOutOfRange x y)

/-- Bytes placed from an address on: a program image or the font (10_state.md R40, 70_reset_and_hazards.md R240). -/
def Memory.placeAt : Memory → Nat → List Byte → Memory
  | m, _, [] => m
  | m, a, b :: bs => Memory.placeAt (m.put a b) (a + 1) bs

/-- The memory after reset with FONT_DATA `font` and a program image: the font at 0x000, the image at 0x200, zero elsewhere
(10_state.md R40). -/
def resetMemory (font rom : List Byte) : Memory := Memory.placeAt (Memory.placeAt [] Config.fontBase font) Config.progBase rom

/-- reset(rom): the whole state as 10_state.md R40 says; a longer image is refused (70_reset_and_hazards.md R240, R241, R243).
The parameters are no state and stay, and the draws go on from where they were, so that none is drawn twice (log 24). -/
def State.resetWith (s : State) (rom : List Byte) : Host.Outcome State Fault Refusal :=
  if rom.length ≤ Config.maxRomLen then
    .next { State.reset with mem := resetMemory s.params.fontData rom, params := s.params, draws := s.draws }
  else .refused (.romTooLarge rom.length)

/-- The operations of the block (60_exceptions.md R225). -/
inductive HostOp where
  | reset (rom : List Byte)
  | step
  | tickDelay
  | tickSound
  | press (k : Nat)
  | release (k : Nat)
  | getPixel (x y : Nat)
  | isSoundActive
  deriving DecidableEq, Repr

/-- What an operation answers the host (60_exceptions.md R225). -/
inductive Answer where
  /-- The operation answers nothing. -/
  | done
  /-- The outcome of a step (60_exceptions.md R201). -/
  | report (r : Report)
  /-- The answer of a query (60_exceptions.md R223, R224). -/
  | bit (b : Bool)
  deriving DecidableEq, Repr

/-- An outcome with the answer `done`. -/
def answerDone : Host.Outcome State Fault Refusal → Host.Outcome (State × Answer) Fault Refusal
  | .next s => .next (s, .done)
  | .fault f => .fault f
  | .refused r => .refused r

/-- A step's outcome with its report as the answer. -/
def answerReport : Host.Outcome (State × Report) Fault Refusal → Host.Outcome (State × Answer) Fault Refusal
  | .next (s, r) => .next (s, .report r)
  | .fault f => .fault f
  | .refused r => .refused r

/-- One operation of the block (60_exceptions.md R225). -/
def perform (op : HostOp) (s : State) : Host.Outcome (State × Answer) Fault Refusal :=
  match op with
  | .reset rom => answerDone (s.resetWith rom)
  | .step => answerReport (stepReport s)
  | .tickDelay => .next (s.tickDelay, .done)
  | .tickSound => .next (s.tickSound, .done)
  | .press k => answerDone (s.press k)
  | .release k => answerDone (s.release k)
  | .getPixel x y =>
    match s.getPixel x y with
    | .ok b => .next (s, .bit b)
    | .error r => .refused r
  | .isSoundActive => .next (s, .bit s.isSoundActive)

/-- A host schedule: the operations in the order the host chooses, with their answers (60_exceptions.md R226). -/
def runOps : List HostOp → State → Host.Outcome (State × List Answer) Fault Refusal
  | [], s => .next (s, [])
  | op :: ops, s =>
    match perform op s with
    | .next (s', a) =>
      match runOps ops s' with
      | .next (s'', as) => .next (s'', a :: as)
      | .fault f => .fault f
      | .refused r => .refused r
    | .fault f => .fault f
    | .refused r => .refused r

/-- One frame of the reference schedule: `steps` steps, then one tick of each timer; the host then takes its snapshot of the
framebuffer (60_exceptions.md R221, R226; Config.stepsPerFrame is the reference value of `steps`). -/
def referenceFrame (steps : Nat) : List HostOp := List.replicate steps HostOp.step ++ [.tickDelay, .tickSound]

end Sys2Proof.Machine
end

