-- ==== Sys2Proof/Safety.lean ====
section
/-! DEFINITION. The terms in which claims are stated: the invariant of a sound state, runs of steps, and what a frame leaves unchanged. -/

namespace Sys2Proof.Machine

/-- The info of a latched fault is what 60_exceptions.md R201 records: the depth is STACK_DEPTH or 0, the address is out of
bounds, the key index is out of range. -/
def Fault.sound (p : Params) : Fault → Bool
  | .stackOverflow depth _ => depth == p.stackDepth
  | .stackUnderflow depth _ => depth == 0
  | .memoryOutOfBounds _ addr _ => decide (addr ≥ Config.memSize)
  | .keyIndexOutOfRange key _ => decide (key.toNat ≥ 16)

/-- What every reachable state satisfies: memory in canonical form (log 23), the parameters inside their bounds (00_scope.md
R8), the stack within STACK_DEPTH (10_state.md R26) and holding only pushed addresses, PC inside [0, 0x10FE] (20_memory.md
R58), and a latched fault recorded at PC with the info of its kind (60_exceptions.md R201, R205). -/
structure State.Inv (s : State) : Prop where
  mem_wf : s.mem.wf = true
  depth_min : Config.minStackDepth ≤ s.params.stackDepth
  font_len : s.params.fontData.length = Config.fontLen
  stack_bound : s.stack.length ≤ s.params.stackDepth
  stack_addr : ∀ a ∈ s.stack, a.toNat ≤ 0x1000
  pc_bound : s.pc.toNat ≤ 0x10FE
  fault_pc : ∀ f, s.fault = some f → f.pc = s.pc
  fault_sound : ∀ f, s.fault = some f → f.sound s.params = true

/-- n steps one after the other, with no host operation between them (60_exceptions.md R226). -/
def runSteps : Nat → State → Host.Outcome State Fault Refusal
  | 0, s => .next s
  | n + 1, s =>
    match step s with
    | .next t => runSteps n t
    | .fault f => .fault f
    | .refused r => .refused r

/-- Every byte of memory reads as before. -/
def SameMemory (s t : State) : Prop := ∀ a, memRead t.mem a = memRead s.mem a

/-- Every byte of memory outside the n bytes from a reads as before. -/
def SameMemoryOutside (s t : State) (a n : Nat) : Prop :=
  ∀ b, (b < a ∨ a + n ≤ b) → memRead t.mem b = memRead s.mem b

/-- Every general register outside the list holds the value it held. -/
def SameRegsExcept (xs : List Reg) (s t : State) : Prop := ∀ y, y ∉ xs → t.reg y = s.reg y

/-- Nothing changed but general registers: PC, I, the stack, the timers, the keys, the framebuffer, the latch, the parameters and
the draw counter are as before, and so is every byte of memory. -/
def OnlyRegs (s t : State) : Prop := t = { s with v := t.v } ∧ SameMemory s t

/-- The effect of a flag-writing ALU instruction (41_alu.md R133): VF holds the flag whatever X is, V[X] holds the result where
X is not F, every other register and all other state are unchanged. -/
def ResultAndFlag (s t : State) (x : Reg) (result flag : Nat) : Prop :=
  (t.reg Reg.vf).toNat = flag ∧ (x ≠ Reg.vf → (t.reg x).toNat = result) ∧ SameRegsExcept [x, Reg.vf] s t ∧ OnlyRegs s t

/-- A faulting instruction leaves every piece of state as it was before the step, with f latched at the address the
instruction was fetched from (60_exceptions.md R205). `s` is the state after the fetch increment. -/
def FaultsWith (s t : State) (f : Word → Fault) : Prop :=
  t = { s with pc := s.pc - 2, fault := some (f (s.pc - 2)) } ∧ SameMemory s t

/-- The sprite bit s(c, r) of a draw of n bytes from `base` at (x0, y0): column (x0 + j) mod 64 and row (y0 + i) mod 32 hold
bit 7 - j of byte i, every other cell 0 (43_display.md R171, R172). -/
def spriteBit (m : Memory) (base x0 y0 n : Nat) (c : Fin 64) (r : Fin 32) : Bool :=
  let i := (r.val + 32 - y0 % 32) % 32
  let j := (c.val + 64 - x0 % 64) % 64
  decide (i < n) && decide (j < 8) && (m.cell (base + i)).getLsbD (7 - j)

end Sys2Proof.Machine
end

