-- ==== Sys2Proof/Certificates/Slice0/Obligations.lean ====
section
/-! DEFINITION. The statements for the provers, from the numbered rules of spec/. `exec i s` is stated in the state `s` after the fetch increment: PC is the address of the instruction plus 2 (30_encoding.md R80). Addresses run over all of Nat: outside memory a read answers the out-of-bounds address. -/

open Sys2Proof Sys2Proof.Machine

/-! ### Encoding -/

/-- Words of every family, read off the patterns of the opcode table, decode to their instruction; words of no row are
unknown (30_encoding.md R72, R75, R76). -/
def Obligations.SampleWordsDecode : Prop :=
  decodeWord 0x00E0 = .instr .cls ∧ decodeWord 0x00EE = .instr .ret ∧ decodeWord 0x1234 = .instr (.jp 0x234) ∧
  decodeWord 0x9120 = .instr (.sneReg 1 2) ∧ decodeWord 0x6A3C = .instr (.ldImm 0xA 0x3C) ∧
  decodeWord 0x8256 = .instr (.shr 2 5) ∧ decodeWord 0xC30F = .instr (.rnd 3 0x0F) ∧ decodeWord 0xA300 = .instr (.ldI 0x300) ∧
  decodeWord 0xF533 = .instr (.ldBVx 5) ∧ decodeWord 0xD125 = .instr (.drw 1 2 5) ∧ decodeWord 0xE1A1 = .instr (.sknp 1) ∧
  decodeWord 0xF40A = .instr (.ldVxK 4) ∧ decodeWord 0x0000 = .unknown 0x0000 ∧ decodeWord 0x5121 = .unknown 0x5121 ∧
  decodeWord 0x8128 = .unknown 0x8128 ∧ decodeWord 0xF090 = .unknown 0xF090

/-- Decoding the encoding of a well-formed instruction gives it back, as a word and from bytes, with every operand at every
value the encoding admits; exactly two bytes are consumed (30_encoding.md R70, R72, R73, R76). -/
def Obligations.DecodeOfEncode : Prop :=
  ∀ (i : Instr) (rest : List Byte), i.wellFormed = true →
    decodeWord (encode i) = .instr i ∧ decodeBytes (bytesOfWord (encode i) ++ rest) = some (.instr i, rest)

/-- An instruction the decoder answers is well-formed and encodes to the very word, so no bit of the word is dropped
(30_encoding.md R73, R76, R78: Y of 8XY6 and 8XYE is decoded). -/
def Obligations.EncodeOfDecode : Prop :=
  ∀ (op : Word) (i : Instr), decodeWord op = .instr i → i.wellFormed = true ∧ encode i = op

/-- The unknown words are exactly those of 30_encoding.md R77: 0nnn but 00E0 and 00EE, 5XYn and 9XYn with n not 0, 8XY8 to
8XYD and 8XYF, EX__ but 9E and A1, FX__ but nine low bytes. That fixed digits must match is the spec's own decision D17. -/
def Obligations.UnknownWordsExactly : Prop :=
  ∀ op : Word, decodeWord op = .unknown op ↔
    (op.toNat / 4096 = 0x0 ∧ op.toNat ≠ 0x00E0 ∧ op.toNat ≠ 0x00EE) ∨
    ((op.toNat / 4096 = 0x5 ∨ op.toNat / 4096 = 0x9) ∧ op.toNat % 16 ≠ 0) ∨
    (op.toNat / 4096 = 0x8 ∧ op.toNat % 16 ∈ [0x8, 0x9, 0xA, 0xB, 0xC, 0xD, 0xF]) ∨
    (op.toNat / 4096 = 0xE ∧ op.toNat % 256 ∉ [0x9E, 0xA1]) ∨
    (op.toNat / 4096 = 0xF ∧ op.toNat % 256 ∉ [0x07, 0x0A, 0x15, 0x18, 0x1E, 0x29, 0x33, 0x55, 0x65])

/-! ### The step cycle -/

/-- When the core is running and the two bytes at PC, the first the high one, decode to an instruction, a step is that
instruction executed in the state whose PC has moved past the word; what it reports is Ok, or the fault it latched
(30_encoding.md R79, R80, R81; 20_memory.md R56). -/
def Obligations.StepRunsDecoded : Prop :=
  ∀ (s : State) (hi lo : Byte) (i : Instr), s.fault = none →
    memRead s.mem s.pc.toNat = .ok hi → memRead s.mem (s.pc.toNat + 1) = .ok lo →
    decodeWord (BitVec.ofNat 16 (hi.toNat * 256 + lo.toNat)) = .instr i →
    step s = exec i { s with pc := s.pc + 2 } ∧
    ∀ t, exec i { s with pc := s.pc + 2 } = .next t →
      stepReport s = .next (t, match t.fault with | none => .ok | some f => .fault f)

/-- An instruction word placed where the next step fetches is the one that step runs, from any state: a faulted one, or one
whose PC is past memory, too. `withFetchWord` is the model's own placement (log 9); the step is 30_encoding.md R79's. -/
def Obligations.PlacedWordIsRun : Prop :=
  ∀ (s : State) (w : Nat) (i : Instr), decodeTableWord 16 w = some i →
    ∃ a : Word, a.toNat + 1 < 4096 ∧ (s.pc.toNat + 1 < 4096 → a = s.pc) ∧ (s.withFetchWord 16 w).pc = a ∧
      step (s.withFetchWord 16 w) = exec i { s.withFetchWord 16 w with pc := a + 2 } ∧
      (∀ b, b ≠ a.toNat → b ≠ a.toNat + 1 → memRead (s.withFetchWord 16 w).mem b = memRead s.mem b)

/-- An unknown word is a no-op: PC advances by 2, nothing else changes, the core keeps running, and the event carries the
four raw nibbles (60_exceptions.md R207). The event's pc is the spec's own addition (30_encoding.md R82, 92 D21). -/
def Obligations.UnknownWordIsNoOp : Prop :=
  ∀ (s : State) (hi lo : Byte) (op : Word), s.fault = none →
    memRead s.mem s.pc.toNat = .ok hi → memRead s.mem (s.pc.toNat + 1) = .ok lo →
    op = BitVec.ofNat 16 (hi.toNat * 256 + lo.toNat) → decodeWord op = .unknown op →
    step s = .next { s with pc := s.pc + 2 } ∧
    ∃ n0 n1 n2 n3 : BitVec 4,
      stepReport s = .next ({ s with pc := s.pc + 2 }, .event (.unknownOpcode n0 n1 n2 n3 s.pc)) ∧
      op.toNat = n0.toNat * 4096 + n1.toNat * 256 + n2.toNat * 16 + n3.toNat

/-- The fetch: the big-endian word of the two bytes while both are in memory, and otherwise MemoryOutOfBounds(fetch) at the
lowest address out of bounds, latched at PC with nothing else changed (20_memory.md R56; check and address are D10). -/
def Obligations.FetchChecksBothBytes : Prop :=
  (∀ (m : Memory) (a : Nat), a < 0xFFF → ∃ hi lo op, memRead m a = .ok hi ∧ memRead m (a + 1) = .ok lo ∧
    fetch16 m a = .ok op ∧ op.toNat = hi.toNat * 256 + lo.toNat) ∧
  (∀ (m : Memory), fetch16 m 0xFFF = .error 0x1000) ∧
  (∀ (m : Memory) (a : Nat), 0x1000 ≤ a → fetch16 m a = .error a) ∧
  (∀ (s : State) (addr : Nat), s.fault = none → fetch16 s.mem s.pc.toNat = .error addr →
    stepReport s = .next ({ s with fault := some (.memoryOutOfBounds .fetch addr s.pc) },
      .fault (.memoryOutOfBounds .fetch addr s.pc)))

/-- A latched fault comes before anything else: every step reports it and changes nothing, and the host operations keep
working with the latch in place (60_exceptions.md R206, R208; the latch is the spec's own decision D11). -/
def Obligations.LatchedFaultHolds : Prop :=
  ∀ (s : State) (f : Fault), s.fault = some f →
    step s = .next s ∧ stepReport s = .next (s, .faulted f) ∧
    (∀ (op : HostOp) (t : State) (a : Answer), perform op s = .next (t, a) → (∀ rom, op ≠ .reset rom) → t.fault = some f) ∧
    (∀ (n : Nat), runSteps n s = .next s)

/-- Faults are precise: a step that raises one leaves every piece of state as it was but the latch, PC included, and reports
that fault and no event (60_exceptions.md R205; precision is the spec's own decision D10). -/
def Obligations.FaultsArePrecise : Prop :=
  ∀ (s t : State) (r : Report) (f : Fault), s.fault = none → stepReport s = .next (t, r) → t.fault = some f →
    t = { s with fault := some f } ∧ f.pc = s.pc ∧ f.sound s.params = true ∧ r = .fault f

/-- No step and no instruction stops the machine: each answers a next state, whatever the state and the operands
(30_encoding.md R79 "never blocks", 60_exceptions.md R211). -/
def Obligations.StepAlwaysAnswers : Prop :=
  (∀ s : State, ∃ t r, stepReport s = .next (t, r) ∧ step s = .next t) ∧
  (∀ (i : Instr) (s : State), ∃ t, exec i s = .next t)

/-- Every step keeps the invariant: canonical memory, the stack within STACK_DEPTH and holding pushed addresses only, PC
within [0, 0x10FE] (20_memory.md R58), a latched fault recorded at PC with sound info. -/
def Obligations.StepKeepsInvariant : Prop := ∀ s t : State, s.Inv → step s = .next t → t.Inv

/-- The state after reset satisfies the invariant. It rests on the model's reset values (logs 4 to 9). -/
def Obligations.ResetMeetsInvariant : Prop := State.reset.Inv

/-- Every operation of the block keeps the invariant (60_exceptions.md R225). -/
def Obligations.HostOpsKeepInvariant : Prop :=
  ∀ (op : HostOp) (s t : State) (a : Answer), s.Inv → perform op s = .next (t, a) → t.Inv

/-! ### Reset and the host's operations -/

/-- The state after reset: every field of 10_state.md R40 for an empty program. The values but PC are the spec's own
decisions D2 to D5 and D11 (logs 5 to 8). -/
def Obligations.ResetValues : Prop :=
  (∀ x, State.reset.reg x = 0) ∧ State.reset.i = 0 ∧ State.reset.pc = 0x200 ∧ State.reset.stack = [] ∧ State.reset.dt = 0 ∧
  State.reset.st = 0 ∧ (∀ k : Fin 16, State.reset.keys[k] = false) ∧ (∀ c r, State.reset.fb.pixel c r = false) ∧
  State.reset.fault = none ∧
  (∀ d j : Nat, d < 16 → j < 5 → ∃ b, Config.fontData[5 * d + j]? = some b ∧ memRead State.reset.mem (5 * d + j) = .ok b) ∧
  (∀ a, 0x50 ≤ a → a < 0x1000 → memRead State.reset.mem a = .ok 0) ∧
  (∀ a, 0x1000 ≤ a → memRead State.reset.mem a = .error a)

/-- reset(rom) from any state, a faulted one too, when the program fits: the font at 0x000, the program at 0x200, zero in the
rest of memory, every other field as after reset, no latched fault (10_state.md R40; 70_reset_and_hazards.md R240, R243). The
zero and empty values are the spec's own decisions D2 to D5, D11. -/
def Obligations.ResetLoadsProgram : Prop :=
  ∀ (s : State) (rom : List Byte), rom.length ≤ 3584 → s.params.fontData.length = 80 →
    ∃ t, perform (.reset rom) s = .next (t, .done) ∧
      t = { State.reset with mem := t.mem, params := s.params, draws := s.draws } ∧
      (∀ a, a < 0x50 → ∃ b, s.params.fontData[a]? = some b ∧ memRead t.mem a = .ok b) ∧
      (∀ a, 0x50 ≤ a → a < 0x200 → memRead t.mem a = .ok 0) ∧
      (∀ k, k < rom.length → ∃ b, rom[k]? = some b ∧ memRead t.mem (0x200 + k) = .ok b) ∧
      (∀ a, 0x200 + rom.length ≤ a → a < 0x1000 → memRead t.mem a = .ok 0)

/-- A program longer than 3584 bytes is refused and gives no state (70_reset_and_hazards.md R241). -/
def Obligations.LongProgramRefused : Prop :=
  ∀ (s : State) (rom : List Byte), 3584 < rom.length → perform (.reset rom) s = .refused (.romTooLarge rom.length)

/-- Each tick decrements its own timer by 1, saturating at 0, and changes nothing else; n ticks of a timer subtract n
(60_exceptions.md R220). -/
def Obligations.TicksSaturateAtZero : Prop :=
  (∀ s : State, ∃ t, perform .tickDelay s = .next (t, .done) ∧ t = { s with dt := t.dt } ∧ t.dt.toNat = s.dt.toNat - 1) ∧
  (∀ s : State, ∃ t, perform .tickSound s = .next (t, .done) ∧ t = { s with st := t.st } ∧ t.st.toNat = s.st.toNat - 1) ∧
  (∀ (n : Nat) (s : State), ∃ t as, runOps (List.replicate n .tickDelay) s = .next (t, as) ∧
    t = { s with dt := t.dt } ∧ t.dt.toNat = s.dt.toNat - n)

/-- press(k) sets Keys[k] and release(k) clears it, each changing only that flag; a key outside the pad is refused
(60_exceptions.md R222). -/
def Obligations.KeysChangeOneAtATime : Prop :=
  (∀ (s : State) (k : Fin 16), ∃ t, perform (.press k.val) s = .next (t, .done) ∧ t = { s with keys := t.keys } ∧
    (∀ j : Fin 16, t.keys[j] = (if j = k then true else s.keys[j])) ∧ (s.keys[k] = true → t = s)) ∧
  (∀ (s : State) (k : Fin 16), ∃ t, perform (.release k.val) s = .next (t, .done) ∧ t = { s with keys := t.keys } ∧
    (∀ j : Fin 16, t.keys[j] = (if j = k then false else s.keys[j])) ∧ (s.keys[k] = false → t = s)) ∧
  (∀ (s : State) (k : Nat), 16 ≤ k →
    perform (.press k) s = .refused (.keyOutOfRange k) ∧ perform (.release k) s = .refused (.keyOutOfRange k))

/-- The queries change nothing: is_sound_active answers ST > 0, get_pixel the pixel, and a pixel outside the grid is refused
(60_exceptions.md R223, R224; the refusal is the spec's own decision D22). -/
def Obligations.QueriesChangeNothing : Prop :=
  (∀ s : State, ∃ b, perform .isSoundActive s = .next (s, .bit b) ∧ (b = true ↔ 0 < s.st.toNat)) ∧
  (∀ (s : State) (x : Fin 64) (y : Fin 32), perform (.getPixel x.val y.val) s = .next (s, .bit s.fb[x][y])) ∧
  (∀ (s : State) (x y : Nat), 64 ≤ x ∨ 32 ≤ y → perform (.getPixel x y) s = .refused (.pixelOutOfRange x y))

/-- A frame of the reference schedule always completes, with one answer per operation: after its n steps each timer is one
lower, saturating at 0, and nothing else has moved (60_exceptions.md R221, R226). -/
def Obligations.FrameTicksOnce : Prop :=
  ∀ (n : Nat) (s : State), ∃ u t as, runSteps n s = .next u ∧ runOps (referenceFrame n) s = .next (t, as) ∧
    as.length = n + 2 ∧ t = { u with dt := t.dt, st := t.st } ∧ t.dt.toNat = u.dt.toNat - 1 ∧ t.st.toNat = u.st.toNat - 1

/-! ### Control transfer -/

/-- JP nnn sets PC to nnn; its word is 1nnn (40_control_flow.md R101). -/
def Obligations.JumpSetsPc : Prop :=
  ∀ (nnn : Word) (s : State),
    (nnn.toNat < 0x1000 → decodeWord (BitVec.ofNat 16 (0x1000 + nnn.toNat)) = .instr (.jp nnn)) ∧
    ∃ t, exec (.jp nnn) s = .next t ∧ t.pc = nnn ∧ t.fault = s.fault

/-- CALL nnn pushes PC, the address of the CALL plus 2, jumps, and changes nothing else; with STACK_DEPTH entries on the stack
it raises StackOverflow instead. Its word is 2nnn (40_control_flow.md R102; what a fault leaves is the spec's own decisions D10
and D11, and the rest unchanged its D9: logs 1, 11, 16). -/
def Obligations.CallPushesReturnAddress : Prop :=
  ∀ (nnn : Word) (s : State),
    (nnn.toNat < 0x1000 → decodeWord (BitVec.ofNat 16 (0x2000 + nnn.toNat)) = .instr (.call nnn)) ∧
    (s.stack.length < s.params.stackDepth →
      ∃ t, exec (.call nnn) s = .next t ∧ t = { s with stack := s.stack ++ [s.pc], pc := nnn } ∧ SameMemory s t) ∧
    (s.stack.length = s.params.stackDepth →
      ∃ t, exec (.call nnn) s = .next t ∧ FaultsWith s t (.stackOverflow s.params.stackDepth))

/-- RET pops the most recent push into PC and changes nothing else; on an empty stack it raises StackUnderflow. Its word is
00EE (40_control_flow.md R100; what a fault leaves is the spec's own decisions D10 and D11, and the rest unchanged its D9: logs
1, 11, 16). -/
def Obligations.RetPopsReturnAddress : Prop :=
  decodeWord 0x00EE = .instr .ret ∧
  (∀ (s : State) (rest : List Word) (top : Word), s.stack = rest ++ [top] →
    ∃ t, exec .ret s = .next t ∧ t = { s with stack := rest, pc := top } ∧ SameMemory s t) ∧
  (∀ s : State, s.stack = [] → ∃ t, exec .ret s = .next t ∧ FaultsWith s t (.stackUnderflow 0))

/-- JP V0, nnn sets PC to nnn + V0, not reduced modulo 4096 and at most 0x10FE (40_control_flow.md R107). -/
def Obligations.IndexedJumpAddsV0 : Prop :=
  ∀ (nnn : Word) (s : State), nnn.toNat < 0x1000 →
    ∃ t, exec (.jpV0 nnn) s = .next t ∧ t.pc.toNat = nnn.toNat + (s.reg 0).toNat ∧ t.pc.toNat ≤ 0x10FE ∧
      t = { s with pc := t.pc } ∧ SameMemory s t

/-- The four compare-and-skip instructions add 2 to PC exactly when their condition holds; their words are 3Xkk, 4Xkk, 5XY0
and 9XY0 (40_control_flow.md R103, R104, R105, R106). -/
def Obligations.SkipsOnComparison : Prop :=
  ∀ (x y : Reg) (kk : Byte) (s : State),
    decodeWord (BitVec.ofNat 16 (0x3000 + x.val * 256 + kk.toNat)) = .instr (.seImm x kk) ∧
    decodeWord (BitVec.ofNat 16 (0x4000 + x.val * 256 + kk.toNat)) = .instr (.sneImm x kk) ∧
    decodeWord (BitVec.ofNat 16 (0x5000 + x.val * 256 + y.val * 16)) = .instr (.seReg x y) ∧
    decodeWord (BitVec.ofNat 16 (0x9000 + x.val * 256 + y.val * 16)) = .instr (.sneReg x y) ∧
    (∃ t, exec (.seImm x kk) s = .next t ∧ t.pc = (if s.reg x = kk then s.pc + 2 else s.pc) ∧ t.fault = s.fault) ∧
    (∃ t, exec (.sneImm x kk) s = .next t ∧ t.pc = (if s.reg x = kk then s.pc else s.pc + 2) ∧ t.fault = s.fault) ∧
    (∃ t, exec (.seReg x y) s = .next t ∧ t.pc = (if s.reg x = s.reg y then s.pc + 2 else s.pc) ∧ t.fault = s.fault) ∧
    (∃ t, exec (.sneReg x y) s = .next t ∧ t.pc = (if s.reg x = s.reg y then s.pc else s.pc + 2) ∧ t.fault = s.fault)

/-- The jumps and the compare-and-skip instructions change PC and nothing else, memory included (40_control_flow.md R101,
R103 to R107; that an instruction changes only what its rule writes is 00_scope.md R15, the spec's own decision D9, log 16). -/
def Obligations.PcInstructionsMovePcOnly : Prop :=
  ∀ (nnn : Word) (x y : Reg) (kk : Byte) (i : Instr) (s t : State),
    i ∈ [.jp nnn, .jpV0 nnn, .seImm x kk, .sneImm x kk, .seReg x y, .sneReg x y] → exec i s = .next t →
    t = { s with pc := t.pc } ∧ SameMemory s t

/-- SKP and SKNP skip on the key VX names and change nothing but PC; with VX at 16 or more they raise KeyIndexOutOfRange
(44_keys_timers.md R180, R181, R182; the fault is the spec's own decision D15, log 12). -/
def Obligations.SkipsOnKey : Prop :=
  ∀ (x : Reg) (s : State),
    (∀ k : Fin 16, (s.reg x).toNat = k.val →
      (∃ t, exec (.skp x) s = .next t ∧ t = { s with pc := if s.keys[k] = true then s.pc + 2 else s.pc } ∧ SameMemory s t) ∧
      (∃ t, exec (.sknp x) s = .next t ∧ t = { s with pc := if s.keys[k] = true then s.pc else s.pc + 2 } ∧ SameMemory s t)) ∧
    (16 ≤ (s.reg x).toNat →
      (∃ t, exec (.skp x) s = .next t ∧ FaultsWith s t (.keyIndexOutOfRange (s.reg x))) ∧
      (∃ t, exec (.sknp x) s = .next t ∧ FaultsWith s t (.keyIndexOutOfRange (s.reg x))))

/-- Call and return: a CALL that finds room on the stack, and a RET from any later state whose stack is the one the CALL
left, give back the stack and the PC after the CALL (40_control_flow.md R109, R100, R102). -/
def Obligations.CallReturnRoundTrip : Prop :=
  ∀ (nnn : Word) (s t u : State), s.stack.length < s.params.stackDepth → exec (.call nnn) s = .next t → u.stack = t.stack →
    t.pc = nnn ∧ ∃ w, exec .ret u = .next w ∧ w = { u with pc := s.pc, stack := s.stack } ∧ SameMemory u w

/-! ### Registers and the ALU -/

/-- LD VX, kk and LD VX, VY: the register takes the value, VF included; their words are 6Xkk and 8XY0 (41_alu.md R121,
R123). -/
def Obligations.LoadsCopyIntoVx : Prop :=
  ∀ (x y : Reg) (kk : Byte) (s : State),
    decodeWord (BitVec.ofNat 16 (0x6000 + x.val * 256 + kk.toNat)) = .instr (.ldImm x kk) ∧
    decodeWord (BitVec.ofNat 16 (0x8000 + x.val * 256 + y.val * 16)) = .instr (.ldReg x y) ∧
    (∃ t, exec (.ldImm x kk) s = .next t ∧ t.reg x = kk ∧ (x ≠ Reg.vf → t.reg Reg.vf = s.reg Reg.vf) ∧ t.fault = s.fault) ∧
    (∃ t, exec (.ldReg x y) s = .next t ∧ t.reg x = s.reg y ∧ (x ≠ Reg.vf → t.reg Reg.vf = s.reg Reg.vf) ∧ t.fault = s.fault)

/-- ADD VX, kk adds modulo 256 and is no flag instruction: VF is unchanged unless X is F, where it takes the sum. Its word is
7Xkk (41_alu.md R122). -/
def Obligations.AddImmediateWraps : Prop :=
  ∀ (x : Reg) (kk : Byte) (s : State),
    decodeWord (BitVec.ofNat 16 (0x7000 + x.val * 256 + kk.toNat)) = .instr (.addImm x kk) ∧
    ∃ t, exec (.addImm x kk) s = .next t ∧ (t.reg x).toNat = ((s.reg x).toNat + kk.toNat) % 256 ∧
      (x ≠ Reg.vf → t.reg Reg.vf = s.reg Reg.vf) ∧ t.fault = s.fault

/-- The loads into a register and the immediate addition change VX and nothing else, memory and PC included; so does LD VX, K
when a key is pressed (41_alu.md R121, R122, R123; 44_keys_timers.md R183, R184; that an instruction changes only what its rule
writes is 00_scope.md R15, the spec's own decision D9, log 16). -/
def Obligations.LoadsWriteVxOnly : Prop :=
  ∀ (x y : Reg) (kk : Byte) (i : Instr) (s t : State), exec i s = .next t →
    (i ∈ [.ldImm x kk, .addImm x kk, .ldReg x y, .ldVxDt x] ∨ (i = .ldVxK x ∧ ∃ k : Fin 16, s.keys[k] = true)) →
    SameRegsExcept [x] s t ∧ OnlyRegs s t

/-- OR, AND and XOR combine VX and VY bit by bit into VX and write no flag (41_alu.md R124, R125, R126; that VF is not reset
is the spec's inference from R15). -/
def Obligations.BitwiseOpsWriteVx : Prop :=
  ∀ (x y : Reg) (s : State),
    (∃ t, exec (.orReg x y) s = .next t ∧
      (∀ j, (t.reg x).getLsbD j = ((s.reg x).getLsbD j || (s.reg y).getLsbD j)) ∧ SameRegsExcept [x] s t ∧ OnlyRegs s t) ∧
    (∃ t, exec (.andReg x y) s = .next t ∧
      (∀ j, (t.reg x).getLsbD j = ((s.reg x).getLsbD j && (s.reg y).getLsbD j)) ∧ SameRegsExcept [x] s t ∧ OnlyRegs s t) ∧
    (∃ t, exec (.xorReg x y) s = .next t ∧
      (∀ j, (t.reg x).getLsbD j = ((s.reg x).getLsbD j ^^ (s.reg y).getLsbD j)) ∧ SameRegsExcept [x] s t ∧ OnlyRegs s t)

/-- ADD VX, VY: the sum modulo 256 in VX and the carry in VF, from the operands before any write; VF holds the flag when X is
F (41_alu.md R127, R133; the last is the spec's own decision D7, log 10). -/
def Obligations.AddSetsCarry : Prop :=
  ∀ (x y : Reg) (s : State), ∃ t, exec (.addReg x y) s = .next t ∧
    ResultAndFlag s t x (((s.reg x).toNat + (s.reg y).toNat) % 256)
      (if (s.reg x).toNat + (s.reg y).toNat > 255 then 1 else 0)

/-- SUB and SUBN: the difference modulo 256 in VX and 1 in VF exactly when there is no borrow, equality included; VF holds
the flag when X is F (41_alu.md R128, R130, R133, R134; the last is the spec's own decision D7, log 10). -/
def Obligations.SubtractionsSetNoBorrow : Prop :=
  ∀ (x y : Reg) (s : State),
    (∃ t, exec (.sub x y) s = .next t ∧
      ResultAndFlag s t x (((s.reg x).toNat + 256 - (s.reg y).toNat) % 256)
        (if (s.reg x).toNat ≥ (s.reg y).toNat then 1 else 0)) ∧
    (∃ t, exec (.subn x y) s = .next t ∧
      ResultAndFlag s t x (((s.reg y).toNat + 256 - (s.reg x).toNat) % 256)
        (if (s.reg y).toNat ≥ (s.reg x).toNat then 1 else 0))

/-- SHR and SHL shift VX by one with the bit shifted out in VF, whatever Y is; VF holds the flag when X is F (41_alu.md R129,
R131, R133, R134, 30_encoding.md R78; the last is the spec's own decision D7, log 10). -/
def Obligations.ShiftsSetShiftedOutBit : Prop :=
  ∀ (x y : Reg) (s : State),
    (∃ t, exec (.shr x y) s = .next t ∧ ResultAndFlag s t x ((s.reg x).toNat / 2) ((s.reg x).toNat % 2)) ∧
    (∃ t, exec (.shl x y) s = .next t ∧ ResultAndFlag s t x ((s.reg x).toNat * 2 % 256) ((s.reg x).toNat / 128))

/-- RND VX, kk: VX holds a random byte masked by kk, whatever byte is drawn; only the draw counter moves beside it
(41_alu.md R132; the draw is unconstrained by the spec's own decision D18, log 3). -/
def Obligations.RandomByteIsMasked : Prop :=
  ∀ (x : Reg) (kk : Byte) (s : State), ∃ t, exec (.rnd x kk) s = .next t ∧
    (∀ j, (t.reg x).getLsbD j = ((Config.randomByte s.draws).getLsbD j && kk.getLsbD j)) ∧
    (kk = 0 → t.reg x = 0) ∧ (kk = 0xFF → t.reg x = Config.randomByte s.draws) ∧
    SameRegsExcept [x] s t ∧ t = { s with v := t.v, draws := s.draws + 1 } ∧ SameMemory s t

/-! ### The index register and memory -/

/-- LD I, nnn sets I to nnn; its word is Annn (42_index_memory.md R150). -/
def Obligations.LoadIndexSetsI : Prop :=
  ∀ (nnn : Word) (s : State),
    (nnn.toNat < 0x1000 → decodeWord (BitVec.ofNat 16 (0xA000 + nnn.toNat)) = .instr (.ldI nnn)) ∧
    ∃ t, exec (.ldI nnn) s = .next t ∧ t.i = nnn ∧ t.fault = s.fault

/-- ADD I, VX adds modulo 65536 with no flag, and LD F, VX sets I to 5 * VX, unmasked; nothing else changes
(42_index_memory.md R151, R152; unmasked is the spec's own decision D16, log 13). -/
def Obligations.IndexArithmetic : Prop :=
  ∀ (x : Reg) (s : State),
    (∃ t, exec (.addIVx x) s = .next t ∧ t.i.toNat = (s.i.toNat + (s.reg x).toNat) % 65536 ∧ t = { s with i := t.i } ∧
      SameMemory s t) ∧
    (∃ t, exec (.ldFVx x) s = .next t ∧ t.i.toNat = 5 * (s.reg x).toNat ∧ t = { s with i := t.i } ∧ SameMemory s t)

/-- LD B, VX stores the three decimal digits of VX at I, I+1, I+2 and nothing else; when I + 2 is outside memory it raises
MemoryOutOfBounds(write) at the lowest address outside, with no byte written (42_index_memory.md R153, 20_memory.md R55;
check first is the spec's own decision D10, log 11). -/
def Obligations.BcdStoresDigits : Prop :=
  ∀ (x : Reg) (s : State),
    (s.i.toNat + 2 < 4096 → ∃ t h d u, exec (.ldBVx x) s = .next t ∧
      memRead t.mem s.i.toNat = .ok h ∧ memRead t.mem (s.i.toNat + 1) = .ok d ∧ memRead t.mem (s.i.toNat + 2) = .ok u ∧
      h.toNat = (s.reg x).toNat / 100 ∧ d.toNat = (s.reg x).toNat / 10 % 10 ∧ u.toNat = (s.reg x).toNat % 10 ∧
      t = { s with mem := t.mem } ∧ SameMemoryOutside s t s.i.toNat 3) ∧
    (4096 ≤ s.i.toNat + 2 → ∃ t, exec (.ldBVx x) s = .next t ∧
      FaultsWith s t (.memoryOutOfBounds .write (max s.i.toNat 4096)))

/-- LD [I], VX stores V0..VX at I..I+X and nothing else, I included; when I + X is outside memory it raises
MemoryOutOfBounds(write) with nothing written (42_index_memory.md R154, 20_memory.md R55; D10, log 11). -/
def Obligations.RegisterDumpStoresRun : Prop :=
  ∀ (x : Reg) (s : State),
    (s.i.toNat + x.val < 4096 → ∃ t, exec (.ldMemVx x) s = .next t ∧
      (∀ j : Reg, j.val ≤ x.val → memRead t.mem (s.i.toNat + j.val) = .ok (s.reg j)) ∧
      t = { s with mem := t.mem } ∧ SameMemoryOutside s t s.i.toNat (x.val + 1)) ∧
    (4096 ≤ s.i.toNat + x.val → ∃ t, exec (.ldMemVx x) s = .next t ∧
      FaultsWith s t (.memoryOutOfBounds .write (max s.i.toNat 4096)))

/-- LD VX, [I] loads V0..VX from I..I+X and changes nothing else, I included; when I + X is outside memory it raises
MemoryOutOfBounds(read) with no register written (42_index_memory.md R155, 20_memory.md R55; D10, log 11). -/
def Obligations.RegisterLoadReadsRun : Prop :=
  ∀ (x : Reg) (s : State),
    (s.i.toNat + x.val < 4096 → ∃ t, exec (.ldVxMem x) s = .next t ∧
      (∀ j : Reg, j.val ≤ x.val → memRead s.mem (s.i.toNat + j.val) = .ok (t.reg j)) ∧
      (∀ j : Reg, x.val < j.val → t.reg j = s.reg j) ∧ OnlyRegs s t) ∧
    (4096 ≤ s.i.toNat + x.val → ∃ t, exec (.ldVxMem x) s = .next t ∧
      FaultsWith s t (.memoryOutOfBounds .read (max s.i.toNat 4096)))

/-- A dump of V0..VX and a later load of V0..VX at the same I from that memory give the registers back, whatever they held
in between (42_index_memory.md R154, R155; 20_memory.md R64). -/
def Obligations.DumpThenLoadRestores : Prop :=
  ∀ (x : Reg) (s t u : State), s.i.toNat + x.val < 4096 → exec (.ldMemVx x) s = .next t → u.mem = t.mem → u.i = s.i →
    ∃ w, exec (.ldVxMem x) u = .next w ∧ (∀ j : Reg, j.val ≤ x.val → w.reg j = s.reg j) ∧
      (∀ j : Reg, x.val < j.val → w.reg j = u.reg j) ∧ OnlyRegs u w

/-- A stored byte is fetched by the very next fetch: after LD [I], VX the word at I + j is V[j], V[j+1] (20_memory.md R67,
70_reset_and_hazards.md R254; the spec's inference from R50 and R64). -/
def Obligations.StoredBytesAreFetched : Prop :=
  ∀ (x j k : Reg) (s t : State), s.i.toNat + x.val < 4096 → exec (.ldMemVx x) s = .next t → k.val = j.val + 1 →
    k.val ≤ x.val → ∃ op, fetch16 t.mem (s.i.toNat + j.val) = .ok op ∧
      op.toNat = (s.reg j).toNat * 256 + (s.reg k).toNat

/-! ### The framebuffer -/

/-- CLS makes every pixel false whatever it was; registers, VF, I and memory are unchanged; its word is 00E0 (43_display.md
R170). -/
def Obligations.ClsClearsEveryPixel : Prop :=
  decodeWord 0x00E0 = .instr .cls ∧
  ∀ s : State, ∃ t, exec .cls s = .next t ∧ (∀ (x : Fin 64) (y : Fin 32), t.fb[x][y] = false) ∧ t.v = s.v ∧ t.i = s.i ∧
    SameMemory s t ∧ t.fault = s.fault

/-- DRW XORs the N sprite bytes from I into the framebuffer at (VX mod 64, VY mod 32), wrapping on both axes, as one
simultaneous update; VF is 1 exactly when a set pixel is cleared, N = 0 included, and nothing else changes (43_display.md R171,
R172; coordinates are those before VF is written, 90 C11). -/
def Obligations.DrawXorsSprite : Prop :=
  ∀ (x y : Reg) (n : Nat) (s : State), n < 16 → (n = 0 ∨ s.i.toNat + n ≤ 4096) →
    ∃ t, exec (.drw x y n) s = .next t ∧
      (∀ (c : Fin 64) (r : Fin 32), t.fb[c][r] = (s.fb[c][r] ^^ spriteBit s.mem s.i.toNat (s.reg x).toNat (s.reg y).toNat n c r)) ∧
      ((∃ (c : Fin 64) (r : Fin 32), s.fb[c][r] = true ∧ t.fb[c][r] = false) → t.reg Reg.vf = 1) ∧
      ((¬ ∃ (c : Fin 64) (r : Fin 32), s.fb[c][r] = true ∧ t.fb[c][r] = false) → t.reg Reg.vf = 0) ∧
      SameRegsExcept [Reg.vf] s t ∧ t = { s with v := t.v, fb := t.fb } ∧ SameMemory s t

/-- DRW whose sprite runs past memory raises MemoryOutOfBounds(read) at the lowest address outside, and no pixel and no VF
changes (43_display.md R171, 20_memory.md R55; check first is the spec's own decision D10, log 11). -/
def Obligations.DrawPastMemoryFaults : Prop :=
  ∀ (x y : Reg) (n : Nat) (s : State), n ≠ 0 → 4096 < s.i.toNat + n →
    ∃ t, exec (.drw x y n) s = .next t ∧ FaultsWith s t (.memoryOutOfBounds .read (max s.i.toNat 4096))

/-- Drawing the same sprite twice at the same position restores the framebuffer, and the second draw sets VF to 1 exactly when
a set sprite bit fell on a pixel that was clear before the first; on a cleared framebuffer that is exactly when the sprite has
a set bit (43_display.md R171, R172; R172 leaves out the condition, log 29). The first draw may move VF, so X and Y are not
F. -/
def Obligations.DrawTwiceRestores : Prop :=
  ∀ (x y : Reg) (n : Nat) (s t : State), x ≠ Reg.vf → y ≠ Reg.vf → n < 16 → (n = 0 ∨ s.i.toNat + n ≤ 4096) →
    exec (.drw x y n) s = .next t →
    ∃ u, exec (.drw x y n) t = .next u ∧ u.fb = s.fb ∧ (u.reg Reg.vf = 0 ∨ u.reg Reg.vf = 1) ∧
      (u.reg Reg.vf = 1 ↔ ∃ (c : Fin 64) (r : Fin 32), s.fb[c][r] = false ∧
        spriteBit s.mem s.i.toNat (s.reg x).toNat (s.reg y).toNat n c r = true) ∧
      ((∀ (c : Fin 64) (r : Fin 32), s.fb[c][r] = false) →
        (u.reg Reg.vf = 1 ↔ ∃ j b, j < n ∧ memRead s.mem (s.i.toNat + j) = .ok b ∧ b ≠ 0))

/-! ### Keys and timers -/

/-- LD VX, K: the lowest pressed key in VX and PC as advanced; with no key pressed PC goes back to the instruction and no other
state changes. Its word is FX0A (44_keys_timers.md R184). -/
def Obligations.WaitKeyTakesLowest : Prop :=
  ∀ (x : Reg) (s : State),
    decodeWord (BitVec.ofNat 16 (0xF00A + x.val * 256)) = .instr (.ldVxK x) ∧
    (∀ k : Fin 16, s.keys[k] = true → (∀ j : Fin 16, j < k → s.keys[j] = false) →
      ∃ t, exec (.ldVxK x) s = .next t ∧ (t.reg x).toNat = k.val ∧ t.pc = s.pc ∧ t.fault = s.fault) ∧
    ((∀ k : Fin 16, s.keys[k] = false) →
      ∃ t, exec (.ldVxK x) s = .next t ∧ t = { s with pc := s.pc - 2 } ∧ SameMemory s t)

/-- With no key pressed a step at an FX0A changes nothing at all, as often as it is repeated, and a tick in between changes the
timer alone (44_keys_timers.md R184; 60_exceptions.md R229; 70_reset_and_hazards.md R252). -/
def Obligations.WaitKeyStalls : Prop :=
  ∀ (s : State) (op : Word) (x : Reg), s.fault = none → fetch16 s.mem s.pc.toNat = .ok op →
    decodeWord op = .instr (.ldVxK x) → (∀ k : Fin 16, s.keys[k] = false) →
    (∀ n : Nat, runSteps n s = .next s) ∧ stepReport s = .next (s, .ok) ∧
    step s.tickDelay = .next s.tickDelay ∧ step s.tickSound = .next s.tickSound

/-- FX07 copies DT into VX and leaves DT alone, FX15 copies VX into DT, FX18 copies VX into ST, which makes the sound active
exactly when VX is above 0; their words are FX07, FX15 and FX18 (44_keys_timers.md R183, R185, R186). -/
def Obligations.TimerLoadsCopy : Prop :=
  ∀ (x : Reg) (s : State),
    decodeWord (BitVec.ofNat 16 (0xF007 + x.val * 256)) = .instr (.ldVxDt x) ∧
    decodeWord (BitVec.ofNat 16 (0xF015 + x.val * 256)) = .instr (.ldDtVx x) ∧
    decodeWord (BitVec.ofNat 16 (0xF018 + x.val * 256)) = .instr (.ldStVx x) ∧
    (∃ t, exec (.ldVxDt x) s = .next t ∧ t.reg x = s.dt ∧ t.dt = s.dt ∧ t.fault = s.fault) ∧
    (∃ t, exec (.ldDtVx x) s = .next t ∧ t.dt = s.reg x ∧ t.fault = s.fault) ∧
    (∃ t, exec (.ldStVx x) s = .next t ∧ t.st = s.reg x ∧ (t.isSoundActive = true ↔ 0 < (s.reg x).toNat) ∧ t.fault = s.fault)

/-- CLS changes the framebuffer and nothing else, Annn, FX1E and FX29 change I and nothing else, FX15 DT and FX18 ST; memory and
PC are unchanged by each (42_index_memory.md R150 to R152, 43_display.md R170, 44_keys_timers.md R185, R186; that an
instruction changes only what its rule writes is 00_scope.md R15, the spec's own decision D9, log 16). -/
def Obligations.OneFieldFrames : Prop :=
  ∀ (nnn : Word) (x : Reg) (i : Instr) (s t : State), exec i s = .next t →
    (i = .cls → t = { s with fb := t.fb } ∧ SameMemory s t) ∧
    (i ∈ [.ldI nnn, .addIVx x, .ldFVx x] → t = { s with i := t.i } ∧ SameMemory s t) ∧
    (i = .ldDtVx x → t = { s with dt := t.dt } ∧ SameMemory s t) ∧
    (i = .ldStVx x → t = { s with st := t.st } ∧ SameMemory s t)

/-! ### Whole-machine rules -/

/-- Which instruction can change which of eight fields: the framebuffer only CLS and DRW, the stack only CALL and RET, I only
Annn, FX1E and FX29, DT only FX15, ST only FX18, the keys none (10_state.md R25 to R30; 43_display.md R173; 60_exceptions.md
R222). Two clauses are about the model's own fields and rest on its own choices: the draw counter changes only in RND (DESIGN
CHOICE, log 3), and the parameters STACK_DEPTH and FONT_DATA change in no instruction (DESIGN CHOICE, log 4; PRESUMED, log 5). -/
def Obligations.StateHasOwners : Prop :=
  ∀ (i : Instr) (s t : State), exec i s = .next t →
    (t.fb ≠ s.fb → i = .cls ∨ ∃ x y n, i = .drw x y n) ∧
    (t.stack ≠ s.stack → i = .ret ∨ ∃ nnn, i = .call nnn) ∧
    (t.i ≠ s.i → (∃ nnn, i = .ldI nnn) ∨ (∃ x, i = .addIVx x) ∨ ∃ x, i = .ldFVx x) ∧
    (t.dt ≠ s.dt → ∃ x, i = .ldDtVx x) ∧ (t.st ≠ s.st → ∃ x, i = .ldStVx x) ∧
    (t.draws ≠ s.draws → ∃ x kk, i = .rnd x kk) ∧ t.keys = s.keys ∧ t.params = s.params

/-- Memory changes only through FX33 and FX55, and only in their bytes: a byte that reads otherwise afterwards lies in
I..I+2 of an FX33 or in I..I+X of an FX55 (20_memory.md R60, R62). -/
def Obligations.StoresStayInTheirRun : Prop :=
  ∀ (i : Instr) (s t : State) (a : Nat), exec i s = .next t → memRead t.mem a ≠ memRead s.mem a →
    (∃ x, i = .ldBVx x ∧ s.i.toNat ≤ a ∧ a ≤ s.i.toNat + 2) ∨
    (∃ x, i = .ldMemVx x ∧ s.i.toNat ≤ a ∧ a ≤ s.i.toNat + x.val)

/-- VF changes only as a flag (8XY4 to 8XY7, 8XYE, DXYN) or as the destination VX of an instruction that writes VX, or in an
FX65 with X = F; 7Xkk, 8XY1 to 8XY3 and FX1E leave it alone unless X is F (10_state.md R21, R22). -/
def Obligations.FlagHasOwners : Prop :=
  ∀ (i : Instr) (s t : State), exec i s = .next t → t.reg Reg.vf ≠ s.reg Reg.vf →
    (∃ x y, i = .addReg x y ∨ i = .sub x y ∨ i = .shr x y ∨ i = .subn x y ∨ i = .shl x y) ∨ (∃ x y n, i = .drw x y n) ∨
    (∃ kk, i = .ldImm Reg.vf kk ∨ i = .addImm Reg.vf kk ∨ i = .rnd Reg.vf kk) ∨
    (∃ y, i = .ldReg Reg.vf y ∨ i = .orReg Reg.vf y ∨ i = .andReg Reg.vf y ∨ i = .xorReg Reg.vf y) ∨
    i = .ldVxDt Reg.vf ∨ i = .ldVxK Reg.vf ∨ i = .ldVxMem Reg.vf

/-- A jump to itself idles: with the word 1nnn at the address nnn every step leaves the whole state as it is, reporting Ok
(70_reset_and_hazards.md R245). -/
def Obligations.SelfJumpIdles : Prop :=
  ∀ (s : State) (op : Word), s.fault = none → fetch16 s.mem s.pc.toNat = .ok op → op.toNat = 0x1000 + s.pc.toNat →
    stepReport s = .next (s, .ok) ∧ ∀ n : Nat, runSteps n s = .next s

/-- A run of zero bytes is passed over two bytes at a time: n steps over 2n zero bytes move PC by 2n and change nothing else
(70_reset_and_hazards.md R244; the spec's inference from R40 and R82). -/
def Obligations.ZeroRunIsPassedOver : Prop :=
  ∀ (n : Nat) (s : State), s.fault = none → s.pc.toNat + 2 * n ≤ 4096 →
    (∀ a, s.pc.toNat ≤ a → a < s.pc.toNat + 2 * n → memRead s.mem a = .ok 0) →
    ∃ t, runSteps n s = .next t ∧ t = { s with pc := t.pc } ∧ t.pc.toNat = s.pc.toNat + 2 * n
end

