-- ==== Sys2Proof/Laws/Decode.lean ====
section
/-! SUPPORT. What each field of a word is as a number, what each format encodes to, and that a format's fields read back. -/

namespace Sys2Proof

/-! ### Fields of a word (30_encoding.md R71, R73) -/

theorem nibble0_toNat (op : Word) : (nibble0 op).toNat = op.toNat / 4096 := by
  have h := op.isLt
  simp only [nibble0, BitVec.extractLsb'_toNat, Nat.shiftRight_eq_div_pow]
  omega

theorem nibble1_toNat (op : Word) : (nibble1 op).toNat = op.toNat / 256 % 16 := by
  simp [nibble1, BitVec.extractLsb'_toNat, Nat.shiftRight_eq_div_pow]

theorem nibble2_toNat (op : Word) : (nibble2 op).toNat = op.toNat / 16 % 16 := by
  simp [nibble2, BitVec.extractLsb'_toNat, Nat.shiftRight_eq_div_pow]

theorem nibble3_toNat (op : Word) : (nibble3 op).toNat = op.toNat % 16 := by
  simp [nibble3, BitVec.extractLsb'_toNat]

theorem fieldX_val (op : Word) : (fieldX op).val = op.toNat / 256 % 16 := nibble1_toNat op

theorem fieldY_val (op : Word) : (fieldY op).val = op.toNat / 16 % 16 := nibble2_toNat op

theorem fieldN_eq (op : Word) : fieldN op = op.toNat % 16 := nibble3_toNat op

theorem fieldKK_toNat (op : Word) : (fieldKK op).toNat = op.toNat % 256 := by
  simp [fieldKK, BitVec.extractLsb'_toNat]

theorem fieldNNN_toNat (op : Word) : (fieldNNN op).toNat = op.toNat % 4096 := by
  simp only [fieldNNN, BitVec.toNat_setWidth, BitVec.extractLsb'_toNat, Nat.shiftRight_zero]
  omega

/-- An address field fits 12 bits. -/
theorem fieldNNN_fits (op : Word) : fitsAddress (fieldNNN op) := by
  simp only [fitsAddress, fieldNNN_toNat]
  omega

/-- A row count field fits 4 bits. -/
theorem fieldN_fits (op : Word) : fitsRows (fieldN op) := by
  simp only [fitsRows, fieldN_eq]
  omega

/-! ### Formats as numbers (30_encoding.md R72) -/

theorem encodeNNN_toNat {d : Nat} {nnn : Word} (hd : d < 16) (h : fitsAddress nnn) :
    (encodeNNN d nnn).toNat = d * 4096 + nnn.toNat := by
  simp only [fitsAddress] at h
  simp only [encodeNNN, BitVec.toNat_ofNat]
  omega

theorem encodeXKK_toNat {d : Nat} (x : Reg) (kk : Byte) (hd : d < 16) :
    (encodeXKK d x kk).toNat = d * 4096 + x.val * 256 + kk.toNat := by
  have h1 := x.isLt
  have h2 := kk.isLt
  simp only [encodeXKK, BitVec.toNat_ofNat]
  omega

theorem encodeXYN_toNat {d n : Nat} (x y : Reg) (hd : d < 16) (hn : n < 16) :
    (encodeXYN d x y n).toNat = d * 4096 + x.val * 256 + y.val * 16 + n := by
  have h1 := x.isLt
  have h2 := y.isLt
  simp only [encodeXYN, BitVec.toNat_ofNat]
  omega

theorem encodeXSUB_toNat {d low : Nat} (x : Reg) (hd : d < 16) (hl : low < 256) :
    (encodeXSUB d x low).toNat = d * 4096 + x.val * 256 + low := by
  have h1 := x.isLt
  simp only [encodeXSUB, BitVec.toNat_ofNat]
  omega

/-! ### A format's fields read back -/

@[simp] theorem nibble0_encodeNNN {d : Nat} {nnn : Word} (hd : d < 16) (h : fitsAddress nnn) : (nibble0 (encodeNNN d nnn)).toNat = d := by
  simp only [fitsAddress] at h
  rw [nibble0_toNat, encodeNNN_toNat hd h]; omega

@[simp] theorem fieldNNN_encodeNNN {d : Nat} {nnn : Word} (hd : d < 16) (h : fitsAddress nnn) : fieldNNN (encodeNNN d nnn) = nnn := by
  simp only [fitsAddress] at h
  refine BitVec.eq_of_toNat_eq ?_
  rw [fieldNNN_toNat, encodeNNN_toNat hd h]; omega

@[simp] theorem nibble0_encodeXKK {d : Nat} (x : Reg) (kk : Byte) (hd : d < 16) : (nibble0 (encodeXKK d x kk)).toNat = d := by
  have h1 := x.isLt
  have h2 := kk.isLt
  rw [nibble0_toNat, encodeXKK_toNat x kk hd]; omega

@[simp] theorem fieldX_encodeXKK {d : Nat} (x : Reg) (kk : Byte) (hd : d < 16) : fieldX (encodeXKK d x kk) = x := by
  have h1 := x.isLt
  have h2 := kk.isLt
  refine Fin.ext ?_
  rw [fieldX_val, encodeXKK_toNat x kk hd]; omega

@[simp] theorem fieldKK_encodeXKK {d : Nat} (x : Reg) (kk : Byte) (hd : d < 16) : fieldKK (encodeXKK d x kk) = kk := by
  have h1 := x.isLt
  have h2 := kk.isLt
  refine BitVec.eq_of_toNat_eq ?_
  rw [fieldKK_toNat, encodeXKK_toNat x kk hd]; omega

@[simp] theorem nibble0_encodeXYN {d n : Nat} (x y : Reg) (hd : d < 16) (hn : n < 16) : (nibble0 (encodeXYN d x y n)).toNat = d := by
  have h1 := x.isLt
  have h2 := y.isLt
  rw [nibble0_toNat, encodeXYN_toNat x y hd hn]; omega

@[simp] theorem fieldX_encodeXYN {d n : Nat} (x y : Reg) (hd : d < 16) (hn : n < 16) : fieldX (encodeXYN d x y n) = x := by
  have h1 := x.isLt
  have h2 := y.isLt
  refine Fin.ext ?_
  rw [fieldX_val, encodeXYN_toNat x y hd hn]; omega

@[simp] theorem fieldY_encodeXYN {d n : Nat} (x y : Reg) (hd : d < 16) (hn : n < 16) : fieldY (encodeXYN d x y n) = y := by
  have h1 := x.isLt
  have h2 := y.isLt
  refine Fin.ext ?_
  rw [fieldY_val, encodeXYN_toNat x y hd hn]; omega

@[simp] theorem fieldN_encodeXYN {d n : Nat} (x y : Reg) (hd : d < 16) (hn : n < 16) : fieldN (encodeXYN d x y n) = n := by
  have h1 := x.isLt
  have h2 := y.isLt
  rw [fieldN_eq, encodeXYN_toNat x y hd hn]; omega

@[simp] theorem nibble0_encodeXSUB {d low : Nat} (x : Reg) (hd : d < 16) (hl : low < 256) : (nibble0 (encodeXSUB d x low)).toNat = d := by
  have h1 := x.isLt
  rw [nibble0_toNat, encodeXSUB_toNat x hd hl]; omega

@[simp] theorem fieldX_encodeXSUB {d low : Nat} (x : Reg) (hd : d < 16) (hl : low < 256) : fieldX (encodeXSUB d x low) = x := by
  have h1 := x.isLt
  refine Fin.ext ?_
  rw [fieldX_val, encodeXSUB_toNat x hd hl]; omega

@[simp] theorem fieldKK_encodeXSUB {d low : Nat} (x : Reg) (hd : d < 16) (hl : low < 256) : (fieldKK (encodeXSUB d x low)).toNat = low := by
  have h1 := x.isLt
  rw [fieldKK_toNat, encodeXSUB_toNat x hd hl]; omega

/-! ### Formats from fields: a word is the number its fields spell -/

theorem encodeNNN_fields (op : Word) : encodeNNN (op.toNat / 4096) (fieldNNN op) = op := by
  refine BitVec.eq_of_toNat_eq ?_
  have h := op.isLt
  rw [encodeNNN_toNat (by omega) (fieldNNN_fits op), fieldNNN_toNat]
  omega

theorem encodeXKK_fields (op : Word) : encodeXKK (op.toNat / 4096) (fieldX op) (fieldKK op) = op := by
  refine BitVec.eq_of_toNat_eq ?_
  have h := op.isLt
  rw [encodeXKK_toNat _ _ (by omega), fieldX_val, fieldKK_toNat]
  omega

theorem encodeXYN_fields (op : Word) : encodeXYN (op.toNat / 4096) (fieldX op) (fieldY op) (fieldN op) = op := by
  refine BitVec.eq_of_toNat_eq ?_
  have h := op.isLt
  rw [encodeXYN_toNat _ _ (by omega) (fieldN_fits op), fieldX_val, fieldY_val, fieldN_eq]
  omega

theorem encodeXSUB_fields (op : Word) : encodeXSUB (op.toNat / 4096) (fieldX op) (fieldKK op).toNat = op := by
  refine BitVec.eq_of_toNat_eq ?_
  have h := op.isLt
  rw [encodeXSUB_toNat _ (by omega) (BitVec.isLt _), fieldX_val, fieldKK_toNat]
  omega

/-! ### Bytes of a word (20_memory.md R59) -/

theorem wordOfBytes_bytes (op : Word) : wordOfBytes (highByte op) (lowByte op) = op := by
  refine BitVec.eq_of_toNat_eq ?_
  have h := op.isLt
  simp only [wordOfBytes, highByte, lowByte, BitVec.extractLsb'_toNat, Nat.shiftRight_eq_div_pow, BitVec.toNat_ofNat]
  omega

/-- Decoding the bytes of a word decodes the word and leaves the rest (30_encoding.md R70). -/
theorem decodeBytes_bytesOfWord (op : Word) (rest : List Byte) :
    decodeBytes (bytesOfWord op ++ rest) = some (decodeWord op, rest) := by
  simp [bytesOfWord, decodeBytes, wordOfBytes_bytes]

end Sys2Proof
end

