-- ==== Sys2Proof/Laws/Display.lean ====
section
/-! SUPPORT. What a draw leaves in every cell and in the collision flag: the loop of 43_display.md R171 as the simultaneous update of R172. -/

namespace Sys2Proof.Machine

theorem Framebuffer.pixel_setPixel (fb : Framebuffer) (x c : Fin 64) (y r : Fin 32) (b : Bool) :
    (fb.setPixel x y b).pixel c r = if c = x ∧ r = y then b else fb.pixel c r := by
  simp only [Framebuffer.pixel, Framebuffer.setPixel, Fin.getElem_fin]
  grind [Fin.ext_iff]

@[simp] theorem Framebuffer.pixel_clear (c : Fin 64) (r : Fin 32) : Framebuffer.clear.pixel c r = false := by
  simp [Framebuffer.pixel, Framebuffer.clear]

/-- Two framebuffers with the same pixels are equal. -/
theorem Framebuffer.ext_pixel {f g : Framebuffer} (h : ∀ c r, f.pixel c r = g.pixel c r) : f = g := by
  refine Vector.ext fun i hi => Vector.ext fun j hj => ?_
  exact h ⟨i, hi⟩ ⟨j, hj⟩

/-- A draw operation as data: the pixels are XORed with `bits`, and the flag is raised when `bits` meets a set pixel. -/
structure DrawSpec (p q : Framebuffer × Bool) (bits : Fin 64 → Fin 32 → Bool) : Prop where
  pixel : ∀ c r, q.1.pixel c r = (p.1.pixel c r ^^ bits c r)
  flag : q.2 = true ↔ p.2 = true ∨ ∃ c r, p.1.pixel c r = true ∧ bits c r = true

theorem DrawSpec.refl (p : Framebuffer × Bool) : DrawSpec p p fun _ _ => false :=
  ⟨fun _ _ => by simp, by simp⟩

/-- Two draws on disjoint cells are the draw of both. -/
theorem DrawSpec.trans {p q u : Framebuffer × Bool} {f g : Fin 64 → Fin 32 → Bool} (h1 : DrawSpec p q f)
    (h2 : DrawSpec q u g) (hd : ∀ c r, f c r = true → g c r = false) : DrawSpec p u fun c r => f c r || g c r := by
  constructor
  · intro c r
    rw [h2.pixel, h1.pixel]
    have := hd c r
    generalize f c r = a at *
    generalize g c r = b at *
    generalize p.1.pixel c r = o
    revert a b o
    decide
  · rw [h2.flag, h1.flag]
    constructor
    · rintro ((h | ⟨c, r, h, h'⟩) | ⟨c, r, h, h'⟩)
      · exact .inl h
      · exact .inr ⟨c, r, h, by simp [h']⟩
      · rw [h1.pixel] at h
        have := hd c r
        exact .inr ⟨c, r, by cases hf : f c r <;> simp_all, by simp [h']⟩
    · rintro (h | ⟨c, r, h, h'⟩)
      · exact .inl (.inl h)
      · cases hf : f c r
        · exact .inr ⟨c, r, by rw [h1.pixel, h, hf]; rfl, by simpa [hf] using h'⟩
        · exact .inl (.inr ⟨c, r, h, hf⟩)

theorem DrawSpec.congr {p q : Framebuffer × Bool} {f g : Fin 64 → Fin 32 → Bool} (h : DrawSpec p q f)
    (e : ∀ c r, f c r = g c r) : DrawSpec p q g := by
  have : f = g := funext fun c => funext fun r => e c r
  exact this ▸ h

theorem drawPixel_spec (p : Framebuffer × Bool) (x : Fin 64) (y : Fin 32) (b : Bool) :
    DrawSpec p (drawPixel p x y b) fun c r => decide (c = x ∧ r = y) && b := by
  constructor
  · intro c r
    simp only [drawPixel, Framebuffer.pixel_setPixel]
    split
    · next h => obtain ⟨rfl, rfl⟩ := h; cases b <;> simp
    · next h => simp [h]
  · simp only [drawPixel, Bool.or_eq_true, Bool.and_eq_true, decide_eq_true_eq]
    constructor
    · rintro (h | ⟨h, h'⟩)
      · exact .inl h
      · exact .inr ⟨x, y, h, ⟨rfl, rfl⟩, by cases b <;> simp_all⟩
    · rintro (h | ⟨c, r, h, ⟨rfl, rfl⟩, h'⟩)
      · exact .inl h
      · exact .inr ⟨h, by simp [h, h']⟩

/-- The first n columns of a row of a draw. -/
theorem drawCols_spec (p : Framebuffer × Bool) (x0 : Nat) (row : Fin 32) (byte : Byte) (n : Nat) (hn : n ≤ 8) :
    DrawSpec p ((List.range n).foldl (fun q j => drawPixel q (Fin.ofNat 64 (x0 + j)) row (byte.getLsbD (7 - j))) p)
      fun c r => decide (r = row) && decide ((c.val + 64 - x0 % 64) % 64 < n) &&
        byte.getLsbD (7 - (c.val + 64 - x0 % 64) % 64) := by
  induction n with
  | zero => exact (DrawSpec.refl p).congr fun c r => by simp
  | succ n ih =>
    rw [List.range_succ, List.foldl_append, List.foldl_cons, List.foldl_nil]
    refine ((ih (by omega)).trans (drawPixel_spec _ _ _ _) ?_).congr ?_
    · intro c r h
      simp only [Bool.and_eq_true, decide_eq_true_eq] at h
      have hne : ¬ (c = Fin.ofNat 64 (x0 + n) ∧ r = row) := by
        rintro ⟨rfl, -⟩
        simp only [Fin.val_ofNat] at h
        omega
      rw [decide_eq_false hne, Bool.false_and]
    · intro c r
      have hc : c = Fin.ofNat 64 (x0 + n) ↔ (c.val + 64 - x0 % 64) % 64 = n := by
        have := c.isLt
        rw [Fin.ext_iff, Fin.val_ofNat]
        omega
      rw [Bool.eq_iff_iff]
      simp only [hc, Bool.or_eq_true, Bool.and_eq_true, decide_eq_true_eq]
      constructor
      · rintro (⟨⟨h1, h2⟩, h3⟩ | ⟨⟨h1, h2⟩, h3⟩)
        · exact ⟨⟨h1, by omega⟩, h3⟩
        · exact ⟨⟨h2, by omega⟩, by rw [h1]; exact h3⟩
      · rintro ⟨⟨h1, h2⟩, h3⟩
        by_cases h : (c.val + 64 - x0 % 64) % 64 = n
        · exact .inr ⟨⟨h, h1⟩, by rw [h] at h3; exact h3⟩
        · exact .inl ⟨⟨h1, by omega⟩, h3⟩

theorem drawRow_spec (p : Framebuffer × Bool) (x0 : Nat) (row : Fin 32) (byte : Byte) :
    DrawSpec p (drawRow p x0 row byte)
      fun c r => decide (r = row) && decide ((c.val + 64 - x0 % 64) % 64 < 8) &&
        byte.getLsbD (7 - (c.val + 64 - x0 % 64) % 64) :=
  drawCols_spec p x0 row byte 8 (Nat.le_refl 8)

/-- The bits of a sprite given as a list of bytes: byte i on row (y0 + i) mod 32 (43_display.md R171). -/
def listBit (x0 y0 : Nat) (bytes : List Byte) (c : Fin 64) (r : Fin 32) : Bool :=
  decide ((r.val + 32 - y0 % 32) % 32 < bytes.length) && decide ((c.val + 64 - x0 % 64) % 64 < 8) &&
    ((bytes[(r.val + 32 - y0 % 32) % 32]?).getD 0).getLsbD (7 - (c.val + 64 - x0 % 64) % 64)

/-- A draw of at most 32 rows is the simultaneous update of its cells (43_display.md R172). -/
theorem drawSprite_spec (p : Framebuffer × Bool) (x0 y0 : Nat) (bytes : List Byte) (h : bytes.length ≤ 32) :
    DrawSpec p (drawSprite p x0 y0 bytes) (listBit x0 y0 bytes) := by
  induction bytes generalizing p y0 with
  | nil => exact (DrawSpec.refl p).congr fun c r => by simp [listBit]
  | cons b bs ih =>
    simp only [List.length_cons] at h
    rw [drawSprite]
    have hrow : ∀ r : Fin 32, r = Fin.ofNat 32 y0 ↔ (r.val + 32 - y0 % 32) % 32 = 0 := by
      intro r
      have := r.isLt
      rw [Fin.ext_iff, Fin.val_ofNat]
      omega
    have hsucc : ∀ r : Fin 32, (r.val + 32 - y0 % 32) % 32 ≠ 0 →
        (r.val + 32 - y0 % 32) % 32 = (r.val + 32 - (y0 + 1) % 32) % 32 + 1 := by
      intro r hr
      have := r.isLt
      omega
    have hlast : ∀ r : Fin 32, (r.val + 32 - y0 % 32) % 32 = 0 → (r.val + 32 - (y0 + 1) % 32) % 32 = 31 := by
      intro r hr
      have := r.isLt
      omega
    refine ((drawRow_spec p x0 _ b).trans (ih _ (y0 + 1) (by omega)) ?_).congr ?_
    · intro c r hb
      simp only [Bool.and_eq_true, decide_eq_true_eq, hrow] at hb
      have h31 := hlast r hb.1.1
      simp only [listBit, h31]
      rw [decide_eq_false (show ¬ 31 < bs.length by omega)]
      simp
    · intro c r
      by_cases hr : (r.val + 32 - y0 % 32) % 32 = 0
      · have h31 := hlast r hr
        simp only [listBit, h31, hr]
        rw [decide_eq_false (show ¬ 31 < bs.length by omega), decide_eq_true ((hrow r).2 hr)]
        simp
      · have hs := hsucc r hr
        simp only [listBit]
        rw [decide_eq_false (show ¬ r = Fin.ofNat 32 y0 from fun e => hr ((hrow r).1 e)), hs]
        simp

/-- The bits of the n bytes read from memory are the sprite bits of the claim's terms. -/
theorem listBit_eq_spriteBit (m : Memory) (base x0 y0 n : Nat) (c : Fin 64) (r : Fin 32) :
    listBit x0 y0 ((List.range n).map fun j => m.cell (base + j)) c r = spriteBit m base x0 y0 n c r := by
  simp only [listBit, spriteBit, List.length_map, List.length_range]
  by_cases h : (r.val + 32 - y0 % 32) % 32 < n
  · simp [h]
  · simp [h]

end Sys2Proof.Machine
end

