-- ==== Sys2Proof/Laws/Memory.lean ====
section
/-! SUPPORT. The laws of memory: a read after a write, the canonical form that every operation keeps, and one lemma per run operation that says all it can do. -/

namespace Sys2Proof.Machine

/-! ### One cell -/

theorem Memory.cell_erase (m : Memory) (a b : Nat) :
    (m.erase a).cell b = if b = a then unlisted b else m.cell b := by
  induction m with
  | nil => simp [Memory.erase, Memory.cell]
  | cons h m ih => grind [Memory.erase, Memory.cell]

theorem Memory.cell_insert (m : Memory) (a b : Nat) (x : Byte)
    (hno : ∀ p ∈ m, p.1 ≠ a) : (m.insert a x).cell b = if b = a then x else m.cell b := by
  induction m with
  | nil => grind [Memory.insert, Memory.cell]
  | cons h m ih => grind [Memory.insert, Memory.cell]

theorem Memory.not_mem_erase (m : Memory) (a : Nat) : ∀ p ∈ m.erase a, p.1 ≠ a := by
  induction m with
  | nil => simp [Memory.erase]
  | cons h m ih => grind [Memory.erase]

/-- A read after a write: the byte written at its address, every other byte as before, in any memory. -/
theorem Memory.cell_put (m : Memory) (a b : Nat) (x : Byte) :
    (m.put a x).cell b = if b = a then x else m.cell b := by
  unfold Memory.put
  split
  · next h => rw [Memory.cell_erase]; split <;> simp_all
  · rw [Memory.cell_insert _ _ _ _ (Memory.not_mem_erase m a), Memory.cell_erase]
    split <;> simp_all

@[simp] theorem Memory.cell_put_same (m : Memory) (a : Nat) (x : Byte) : (m.put a x).cell a = x := by
  simp [Memory.cell_put]

theorem Memory.cell_put_other (m : Memory) {a b : Nat} (x : Byte) (h : b ≠ a) : (m.put a x).cell b = m.cell b := by
  simp [Memory.cell_put, h]

/-! ### The canonical form -/

theorem Memory.wfFrom_mono {m : Memory} {lo lo' : Nat} (h : lo' ≤ lo) (hm : m.wfFrom lo = true) : m.wfFrom lo' = true := by
  cases m with
  | nil => rfl
  | cons p m => grind [Memory.wfFrom]

theorem Memory.wfFrom_erase {m : Memory} {lo : Nat} (a : Nat) (hm : m.wfFrom lo = true) : (m.erase a).wfFrom lo = true := by
  induction m generalizing lo with
  | nil => rfl
  | cons p m ih =>
    obtain ⟨b, w⟩ := p
    simp only [Memory.wfFrom, Bool.and_eq_true, decide_eq_true_eq] at hm
    obtain ⟨⟨⟨h1, h2⟩, h3⟩, h4⟩ := hm
    simp only [Memory.erase]
    split
    · exact Memory.wfFrom_mono (by omega) (ih h4)
    · simp [Memory.wfFrom, h1, h2, h3, ih h4]

theorem Memory.wfFrom_insert {m : Memory} {lo a : Nat} {x : Byte} (hlo : lo ≤ a) (ha : a < Config.memSize)
    (hx : x ≠ unlisted a) (hno : ∀ p ∈ m, p.1 ≠ a) (hm : m.wfFrom lo = true) : (m.insert a x).wfFrom lo = true := by
  induction m generalizing lo with
  | nil => simp [Memory.insert, Memory.wfFrom, hlo, ha, hx]
  | cons p m ih =>
    obtain ⟨b, w⟩ := p
    simp only [Memory.wfFrom, Bool.and_eq_true, decide_eq_true_eq] at hm
    obtain ⟨⟨⟨h1, h2⟩, h3⟩, h4⟩ := hm
    have hb : b ≠ a := hno (b, w) (by simp)
    simp only [Memory.insert]
    split
    · simp only [Memory.wfFrom, Bool.and_eq_true, decide_eq_true_eq]
      exact ⟨⟨⟨hlo, ha⟩, hx⟩, ⟨⟨by omega, h2⟩, h3⟩, h4⟩
    · simp only [Memory.wfFrom, Bool.and_eq_true, decide_eq_true_eq]
      exact ⟨⟨⟨h1, h2⟩, h3⟩, ih (by omega) (fun p hp => hno p (by simp [hp])) h4⟩

/-- A write inside the address space keeps the canonical form. -/
theorem Memory.wf_put {m : Memory} {a : Nat} (x : Byte) (ha : a < Config.memSize) (hm : m.wf = true) :
    (m.put a x).wf = true := by
  unfold Memory.put Memory.wf
  split
  · exact Memory.wfFrom_erase a hm
  · next hx =>
    exact Memory.wfFrom_insert (Nat.zero_le a) ha hx (Memory.not_mem_erase m a) (Memory.wfFrom_erase a hm)

/-- MemWrite keeps the canonical form. -/
theorem memWrite_wf {m m' : Memory} {a : Nat} {x : Byte} (h : memWrite m a x = .ok m') (hm : m.wf = true) :
    m'.wf = true := by
  unfold memWrite at h
  split at h
  · next ha => cases h; exact Memory.wf_put x ha hm
  · cases h

theorem writeBytes_wf {m m' : Memory} {a : Nat} {bs : List Byte} (h : writeBytes m a bs = .ok m') (hm : m.wf = true) :
    m'.wf = true := by
  induction bs generalizing m a with
  | nil => cases h; exact hm
  | cons b bs ih =>
    simp only [writeBytes] at h
    split at h
    · next hw => exact ih h (memWrite_wf hw hm)
    · cases h

/-- A run of writes keeps the canonical form. -/
theorem writeRun_wf {m m' : Memory} {a : Nat} {bs : List Byte} (h : writeRun m a bs = .ok m') (hm : m.wf = true) :
    m'.wf = true := by
  unfold writeRun at h
  split at h
  · exact writeBytes_wf h hm
  · cases h

/-- Placing bytes inside the address space keeps the canonical form. -/
theorem Memory.wf_placeAt {m : Memory} {a : Nat} {bs : List Byte} (h : a + bs.length ≤ Config.memSize) (hm : m.wf = true) :
    (Memory.placeAt m a bs).wf = true := by
  induction bs generalizing m a with
  | nil => exact hm
  | cons b bs ih =>
    simp only [List.length_cons] at h
    exact ih (by omega) (Memory.wf_put b (by omega) hm)

/-- The memory after reset is in canonical form. -/
theorem resetMemory_wf {font rom : List Byte} (hf : font.length = Config.fontLen) (hr : rom.length ≤ Config.maxRomLen) :
    (resetMemory font rom).wf = true := by
  simp only [Config.fontLen, Config.maxRomLen] at hf hr
  refine Memory.wf_placeAt ?_ (Memory.wf_placeAt ?_ rfl)
  · simp only [Config.progBase, Config.memSize]; omega
  · simp only [Config.fontBase, Config.memSize]; omega

/-- What placed bytes read as. -/
theorem Memory.cell_placeAt (m : Memory) (a b : Nat) (bs : List Byte) :
    (Memory.placeAt m a bs).cell b = if a ≤ b then (bs[b - a]?).getD (m.cell b) else m.cell b := by
  induction bs generalizing m a with
  | nil => simp [Memory.placeAt]
  | cons x bs ih =>
    rw [Memory.placeAt, ih, Memory.cell_put]
    rcases Nat.lt_trichotomy a b with h | h | h
    · rw [if_pos (show a + 1 ≤ b by omega), if_pos (show a ≤ b by omega), if_neg (show ¬ b = a by omega),
        show b - a = (b - (a + 1)) + 1 by omega, List.getElem?_cons_succ]
    · subst h
      simp
    · rw [if_neg (show ¬ a + 1 ≤ b by omega), if_neg (show ¬ a ≤ b by omega), if_neg (show ¬ b = a by omega)]

/-! ### The access primitives -/

@[simp] theorem memRead_ok {m : Memory} {a : Nat} (h : a < 4096) : memRead m a = .ok (m.cell a) := by
  simp [memRead, Config.memSize, h]

@[simp] theorem memRead_error {m : Memory} {a : Nat} (h : 4096 ≤ a) : memRead m a = .error a := by
  simp [memRead, Config.memSize, Nat.not_lt.mpr h]

/-- Two memories with the same cells read the same everywhere. -/
theorem memRead_congr {m m' : Memory} {a : Nat} (h : m'.cell a = m.cell a) : memRead m' a = memRead m a := by
  simp [memRead, h]

/-- CheckRange passes exactly when the run is empty or ends inside memory; the address it reports otherwise is the lowest out
of bounds (20_memory.md R55). -/
theorem checkRange_eq (a n : Nat) :
    checkRange a n = if n = 0 ∨ a + n ≤ 4096 then .ok () else .error (max a 4096) := by
  unfold checkRange
  simp only [Config.memSize]
  grind

theorem readBytes_ok {m : Memory} {a n : Nat} (h : n = 0 ∨ a + n ≤ 4096) :
    readBytes m a n = .ok ((List.range n).map fun j => m.cell (a + j)) := by
  induction n generalizing a with
  | zero => rfl
  | succ n ih =>
    rw [readBytes, memRead_ok (by omega), ih (by omega)]
    simp only [List.range_succ_eq_map, List.map_cons, List.map_map, Function.comp_def, Nat.add_zero, Nat.succ_eq_add_one,
      Nat.add_comm, Nat.add_left_comm]

/-- Everything a read run can do: the n bytes, or the lowest address out of bounds (20_memory.md R53, R55). -/
theorem readRun_eq (m : Memory) (a n : Nat) :
    readRun m a n = if n = 0 ∨ a + n ≤ 4096 then .ok ((List.range n).map fun j => m.cell (a + j)) else .error (max a 4096) := by
  unfold readRun
  rw [checkRange_eq]
  by_cases h : n = 0 ∨ a + n ≤ 4096
  · simp only [if_pos h, readBytes_ok h]
  · simp only [if_neg h]

theorem writeBytes_ok {m : Memory} {a : Nat} {bs : List Byte} (h : bs = [] ∨ a + bs.length ≤ 4096) :
    writeBytes m a bs = .ok (Memory.placeAt m a bs) := by
  induction bs generalizing m a with
  | nil => rfl
  | cons b bs ih =>
    have h' : a + (bs.length + 1) ≤ 4096 := by simpa using h
    rw [writeBytes, memWrite, if_pos (by simp only [Config.memSize]; omega)]
    exact ih (by right; omega)

/-- Everything a write run can do: the bytes placed, or the lowest address out of bounds with nothing written (20_memory.md
R54, R55). -/
theorem writeRun_eq (m : Memory) (a : Nat) (bs : List Byte) :
    writeRun m a bs =
      if bs = [] ∨ a + bs.length ≤ 4096 then .ok (Memory.placeAt m a bs) else .error (max a 4096) := by
  unfold writeRun
  rw [checkRange_eq]
  by_cases h : bs = [] ∨ a + bs.length ≤ 4096
  · have h' : bs.length = 0 ∨ a + bs.length ≤ 4096 := by simpa [List.length_eq_zero_iff] using h
    simp only [if_pos h, if_pos h', writeBytes_ok h]
  · have h' : ¬ (bs.length = 0 ∨ a + bs.length ≤ 4096) := by simpa [List.length_eq_zero_iff] using h
    simp only [if_neg h, if_neg h']

/-- Everything a fetch can do: the big-endian word, or the lowest address out of bounds (20_memory.md R56). -/
theorem fetch16_eq (m : Memory) (a : Nat) :
    fetch16 m a = if a + 2 ≤ 4096 then .ok (wordOfBytes (m.cell a) (m.cell (a + 1))) else .error (max a 4096) := by
  unfold fetch16
  rw [readRun_eq]
  by_cases h : a + 2 ≤ 4096
  · simp [h, List.range_succ_eq_map]
  · simp [h]

/-- A fetched word is the number hi * 256 + lo (20_memory.md R56). -/
@[simp] theorem wordOfBytes_toNat (hi lo : Byte) : (wordOfBytes hi lo).toNat = hi.toNat * 256 + lo.toNat := by
  have h1 := hi.isLt
  have h2 := lo.isLt
  simp only [wordOfBytes, BitVec.toNat_ofNat]
  omega

/-! ### The accesses of instructions -/

/-- A read in bounds uses the bytes. -/
theorem State.withRead_ok {s : State} {a n : Nat} (use : List Byte → State) (h : n = 0 ∨ a + n ≤ 4096) :
    s.withRead a n use = use ((List.range n).map fun j => s.mem.cell (a + j)) := by
  simp only [State.withRead, readRun_eq, if_pos h]

/-- A read out of bounds raises MemoryOutOfBounds(read) at the lowest address out of bounds. -/
theorem State.withRead_error {s : State} {a n : Nat} (use : List Byte → State) (hn : n ≠ 0) (h : 4096 < a + n) :
    s.withRead a n use = s.raise (.memoryOutOfBounds .read (max a 4096)) := by
  simp only [State.withRead, readRun_eq]
  rw [if_neg (by omega)]

/-- A store in bounds places the bytes and changes nothing else. -/
theorem State.store_ok {s : State} {a : Nat} {bs : List Byte} (h : bs = [] ∨ a + bs.length ≤ 4096) :
    s.store a bs = { s with mem := Memory.placeAt s.mem a bs } := by
  simp only [State.store, writeRun_eq, if_pos h]

/-- A store out of bounds raises MemoryOutOfBounds(write) with nothing written. -/
theorem State.store_error {s : State} {a : Nat} {bs : List Byte} (hn : bs ≠ []) (h : 4096 < a + bs.length) :
    s.store a bs = s.raise (.memoryOutOfBounds .write (max a 4096)) := by
  have h' : ¬ (bs = [] ∨ a + bs.length ≤ 4096) := by simp [hn, h]
  simp only [State.store, writeRun_eq, if_neg h']

/-- The bytes a store in bounds leaves: byte j at a + j, every other cell as before. -/
theorem Memory.cell_placeAt_inside (m : Memory) {a j : Nat} {bs : List Byte} (h : j < bs.length) :
    (Memory.placeAt m a bs).cell (a + j) = bs[j] := by
  rw [Memory.cell_placeAt, if_pos (by omega), Nat.add_sub_cancel_left, List.getElem?_eq_getElem h]
  rfl

theorem Memory.cell_placeAt_outside (m : Memory) {a b : Nat} {bs : List Byte} (h : b < a ∨ a + bs.length ≤ b) :
    (Memory.placeAt m a bs).cell b = m.cell b := by
  rw [Memory.cell_placeAt]
  split
  · rw [List.getElem?_eq_none (by omega)]; rfl
  · rfl

end Sys2Proof.Machine
end

