-- ==== Sys2Proof/Laws/State.lean ====
section
/-! SUPPORT. One lemma per field per update of the state, true by rfl, and what each register-valued update does to one register. -/

namespace Sys2Proof.Machine

/-! ### advance -/

@[simp] theorem State.advance_v (s : State) : s.advance.v = s.v := rfl
@[simp] theorem State.advance_i (s : State) : s.advance.i = s.i := rfl
@[simp] theorem State.advance_pc (s : State) : s.advance.pc = s.pc + 2 := rfl
@[simp] theorem State.advance_stack (s : State) : s.advance.stack = s.stack := rfl
@[simp] theorem State.advance_dt (s : State) : s.advance.dt = s.dt := rfl
@[simp] theorem State.advance_st (s : State) : s.advance.st = s.st := rfl
@[simp] theorem State.advance_keys (s : State) : s.advance.keys = s.keys := rfl
@[simp] theorem State.advance_fb (s : State) : s.advance.fb = s.fb := rfl
@[simp] theorem State.advance_mem (s : State) : s.advance.mem = s.mem := rfl
@[simp] theorem State.advance_fault (s : State) : s.advance.fault = s.fault := rfl
@[simp] theorem State.advance_params (s : State) : s.advance.params = s.params := rfl
@[simp] theorem State.advance_draws (s : State) : s.advance.draws = s.draws := rfl

/-! ### jump -/

@[simp] theorem State.jump_v (s : State) (t : Word) : (s.jump t).v = s.v := rfl
@[simp] theorem State.jump_i (s : State) (t : Word) : (s.jump t).i = s.i := rfl
@[simp] theorem State.jump_pc (s : State) (t : Word) : (s.jump t).pc = t := rfl
@[simp] theorem State.jump_stack (s : State) (t : Word) : (s.jump t).stack = s.stack := rfl
@[simp] theorem State.jump_dt (s : State) (t : Word) : (s.jump t).dt = s.dt := rfl
@[simp] theorem State.jump_st (s : State) (t : Word) : (s.jump t).st = s.st := rfl
@[simp] theorem State.jump_keys (s : State) (t : Word) : (s.jump t).keys = s.keys := rfl
@[simp] theorem State.jump_fb (s : State) (t : Word) : (s.jump t).fb = s.fb := rfl
@[simp] theorem State.jump_mem (s : State) (t : Word) : (s.jump t).mem = s.mem := rfl
@[simp] theorem State.jump_fault (s : State) (t : Word) : (s.jump t).fault = s.fault := rfl
@[simp] theorem State.jump_params (s : State) (t : Word) : (s.jump t).params = s.params := rfl
@[simp] theorem State.jump_draws (s : State) (t : Word) : (s.jump t).draws = s.draws := rfl

/-! ### retract -/

@[simp] theorem State.retract_v (s : State) : s.retract.v = s.v := rfl
@[simp] theorem State.retract_i (s : State) : s.retract.i = s.i := rfl
@[simp] theorem State.retract_pc (s : State) : s.retract.pc = s.pc - 2 := rfl
@[simp] theorem State.retract_stack (s : State) : s.retract.stack = s.stack := rfl
@[simp] theorem State.retract_dt (s : State) : s.retract.dt = s.dt := rfl
@[simp] theorem State.retract_st (s : State) : s.retract.st = s.st := rfl
@[simp] theorem State.retract_keys (s : State) : s.retract.keys = s.keys := rfl
@[simp] theorem State.retract_fb (s : State) : s.retract.fb = s.fb := rfl
@[simp] theorem State.retract_mem (s : State) : s.retract.mem = s.mem := rfl
@[simp] theorem State.retract_fault (s : State) : s.retract.fault = s.fault := rfl
@[simp] theorem State.retract_params (s : State) : s.retract.params = s.params := rfl
@[simp] theorem State.retract_draws (s : State) : s.retract.draws = s.draws := rfl

/-! ### takeFault -/

@[simp] theorem State.takeFault_v (s : State) (a : Word) (f : Word → Fault) : (s.takeFault a f).v = s.v := rfl
@[simp] theorem State.takeFault_i (s : State) (a : Word) (f : Word → Fault) : (s.takeFault a f).i = s.i := rfl
@[simp] theorem State.takeFault_pc (s : State) (a : Word) (f : Word → Fault) : (s.takeFault a f).pc = a := rfl
@[simp] theorem State.takeFault_stack (s : State) (a : Word) (f : Word → Fault) : (s.takeFault a f).stack = s.stack := rfl
@[simp] theorem State.takeFault_dt (s : State) (a : Word) (f : Word → Fault) : (s.takeFault a f).dt = s.dt := rfl
@[simp] theorem State.takeFault_st (s : State) (a : Word) (f : Word → Fault) : (s.takeFault a f).st = s.st := rfl
@[simp] theorem State.takeFault_keys (s : State) (a : Word) (f : Word → Fault) : (s.takeFault a f).keys = s.keys := rfl
@[simp] theorem State.takeFault_fb (s : State) (a : Word) (f : Word → Fault) : (s.takeFault a f).fb = s.fb := rfl
@[simp] theorem State.takeFault_mem (s : State) (a : Word) (f : Word → Fault) : (s.takeFault a f).mem = s.mem := rfl
@[simp] theorem State.takeFault_fault (s : State) (a : Word) (f : Word → Fault) : (s.takeFault a f).fault = some (f a) := rfl
@[simp] theorem State.takeFault_params (s : State) (a : Word) (f : Word → Fault) : (s.takeFault a f).params = s.params := rfl
@[simp] theorem State.takeFault_draws (s : State) (a : Word) (f : Word → Fault) : (s.takeFault a f).draws = s.draws := rfl

/-! ### raise -/

@[simp] theorem State.raise_v (s : State) (f : Word → Fault) : (s.raise f).v = s.v := rfl
@[simp] theorem State.raise_i (s : State) (f : Word → Fault) : (s.raise f).i = s.i := rfl
@[simp] theorem State.raise_pc (s : State) (f : Word → Fault) : (s.raise f).pc = s.pc - 2 := rfl
@[simp] theorem State.raise_stack (s : State) (f : Word → Fault) : (s.raise f).stack = s.stack := rfl
@[simp] theorem State.raise_dt (s : State) (f : Word → Fault) : (s.raise f).dt = s.dt := rfl
@[simp] theorem State.raise_st (s : State) (f : Word → Fault) : (s.raise f).st = s.st := rfl
@[simp] theorem State.raise_keys (s : State) (f : Word → Fault) : (s.raise f).keys = s.keys := rfl
@[simp] theorem State.raise_fb (s : State) (f : Word → Fault) : (s.raise f).fb = s.fb := rfl
@[simp] theorem State.raise_mem (s : State) (f : Word → Fault) : (s.raise f).mem = s.mem := rfl
@[simp] theorem State.raise_fault (s : State) (f : Word → Fault) : (s.raise f).fault = some (f (s.pc - 2)) := rfl
@[simp] theorem State.raise_params (s : State) (f : Word → Fault) : (s.raise f).params = s.params := rfl
@[simp] theorem State.raise_draws (s : State) (f : Word → Fault) : (s.raise f).draws = s.draws := rfl

/-! ### setReg -/

@[simp] theorem State.setReg_v (s : State) (x : Reg) (b : Byte) : (s.setReg x b).v = s.v.set x b := rfl
@[simp] theorem State.setReg_i (s : State) (x : Reg) (b : Byte) : (s.setReg x b).i = s.i := rfl
@[simp] theorem State.setReg_pc (s : State) (x : Reg) (b : Byte) : (s.setReg x b).pc = s.pc := rfl
@[simp] theorem State.setReg_stack (s : State) (x : Reg) (b : Byte) : (s.setReg x b).stack = s.stack := rfl
@[simp] theorem State.setReg_dt (s : State) (x : Reg) (b : Byte) : (s.setReg x b).dt = s.dt := rfl
@[simp] theorem State.setReg_st (s : State) (x : Reg) (b : Byte) : (s.setReg x b).st = s.st := rfl
@[simp] theorem State.setReg_keys (s : State) (x : Reg) (b : Byte) : (s.setReg x b).keys = s.keys := rfl
@[simp] theorem State.setReg_fb (s : State) (x : Reg) (b : Byte) : (s.setReg x b).fb = s.fb := rfl
@[simp] theorem State.setReg_mem (s : State) (x : Reg) (b : Byte) : (s.setReg x b).mem = s.mem := rfl
@[simp] theorem State.setReg_fault (s : State) (x : Reg) (b : Byte) : (s.setReg x b).fault = s.fault := rfl
@[simp] theorem State.setReg_params (s : State) (x : Reg) (b : Byte) : (s.setReg x b).params = s.params := rfl
@[simp] theorem State.setReg_draws (s : State) (x : Reg) (b : Byte) : (s.setReg x b).draws = s.draws := rfl

/-! ### setFlag -/

@[simp] theorem State.setFlag_v (s : State) (c : Bool) : (s.setFlag c).v = s.v.set Reg.vf (flagByte c) := rfl
@[simp] theorem State.setFlag_i (s : State) (c : Bool) : (s.setFlag c).i = s.i := rfl
@[simp] theorem State.setFlag_pc (s : State) (c : Bool) : (s.setFlag c).pc = s.pc := rfl
@[simp] theorem State.setFlag_stack (s : State) (c : Bool) : (s.setFlag c).stack = s.stack := rfl
@[simp] theorem State.setFlag_dt (s : State) (c : Bool) : (s.setFlag c).dt = s.dt := rfl
@[simp] theorem State.setFlag_st (s : State) (c : Bool) : (s.setFlag c).st = s.st := rfl
@[simp] theorem State.setFlag_keys (s : State) (c : Bool) : (s.setFlag c).keys = s.keys := rfl
@[simp] theorem State.setFlag_fb (s : State) (c : Bool) : (s.setFlag c).fb = s.fb := rfl
@[simp] theorem State.setFlag_mem (s : State) (c : Bool) : (s.setFlag c).mem = s.mem := rfl
@[simp] theorem State.setFlag_fault (s : State) (c : Bool) : (s.setFlag c).fault = s.fault := rfl
@[simp] theorem State.setFlag_params (s : State) (c : Bool) : (s.setFlag c).params = s.params := rfl
@[simp] theorem State.setFlag_draws (s : State) (c : Bool) : (s.setFlag c).draws = s.draws := rfl

/-! ### setResultFlag -/

@[simp] theorem State.setResultFlag_v (s : State) (x : Reg) (b : Byte) (c : Bool) : (s.setResultFlag x b c).v = (s.v.set x b).set Reg.vf (flagByte c) := rfl
@[simp] theorem State.setResultFlag_i (s : State) (x : Reg) (b : Byte) (c : Bool) : (s.setResultFlag x b c).i = s.i := rfl
@[simp] theorem State.setResultFlag_pc (s : State) (x : Reg) (b : Byte) (c : Bool) : (s.setResultFlag x b c).pc = s.pc := rfl
@[simp] theorem State.setResultFlag_stack (s : State) (x : Reg) (b : Byte) (c : Bool) : (s.setResultFlag x b c).stack = s.stack := rfl
@[simp] theorem State.setResultFlag_dt (s : State) (x : Reg) (b : Byte) (c : Bool) : (s.setResultFlag x b c).dt = s.dt := rfl
@[simp] theorem State.setResultFlag_st (s : State) (x : Reg) (b : Byte) (c : Bool) : (s.setResultFlag x b c).st = s.st := rfl
@[simp] theorem State.setResultFlag_keys (s : State) (x : Reg) (b : Byte) (c : Bool) : (s.setResultFlag x b c).keys = s.keys := rfl
@[simp] theorem State.setResultFlag_fb (s : State) (x : Reg) (b : Byte) (c : Bool) : (s.setResultFlag x b c).fb = s.fb := rfl
@[simp] theorem State.setResultFlag_mem (s : State) (x : Reg) (b : Byte) (c : Bool) : (s.setResultFlag x b c).mem = s.mem := rfl
@[simp] theorem State.setResultFlag_fault (s : State) (x : Reg) (b : Byte) (c : Bool) : (s.setResultFlag x b c).fault = s.fault := rfl
@[simp] theorem State.setResultFlag_params (s : State) (x : Reg) (b : Byte) (c : Bool) : (s.setResultFlag x b c).params = s.params := rfl
@[simp] theorem State.setResultFlag_draws (s : State) (x : Reg) (b : Byte) (c : Bool) : (s.setResultFlag x b c).draws = s.draws := rfl

/-! ### loadRegs -/

@[simp] theorem State.loadRegs_i (s : State) (bs : List Byte) : (s.loadRegs bs).i = s.i := rfl
@[simp] theorem State.loadRegs_pc (s : State) (bs : List Byte) : (s.loadRegs bs).pc = s.pc := rfl
@[simp] theorem State.loadRegs_stack (s : State) (bs : List Byte) : (s.loadRegs bs).stack = s.stack := rfl
@[simp] theorem State.loadRegs_dt (s : State) (bs : List Byte) : (s.loadRegs bs).dt = s.dt := rfl
@[simp] theorem State.loadRegs_st (s : State) (bs : List Byte) : (s.loadRegs bs).st = s.st := rfl
@[simp] theorem State.loadRegs_keys (s : State) (bs : List Byte) : (s.loadRegs bs).keys = s.keys := rfl
@[simp] theorem State.loadRegs_fb (s : State) (bs : List Byte) : (s.loadRegs bs).fb = s.fb := rfl
@[simp] theorem State.loadRegs_mem (s : State) (bs : List Byte) : (s.loadRegs bs).mem = s.mem := rfl
@[simp] theorem State.loadRegs_fault (s : State) (bs : List Byte) : (s.loadRegs bs).fault = s.fault := rfl
@[simp] theorem State.loadRegs_params (s : State) (bs : List Byte) : (s.loadRegs bs).params = s.params := rfl
@[simp] theorem State.loadRegs_draws (s : State) (bs : List Byte) : (s.loadRegs bs).draws = s.draws := rfl

/-! ### drawAt -/

@[simp] theorem State.drawAt_v (s : State) (x0 y0 : Nat) (sp : List Byte) : (s.drawAt x0 y0 sp).v = s.v.set Reg.vf (flagByte (drawSprite (s.fb, false) x0 y0 sp).2) := rfl
@[simp] theorem State.drawAt_i (s : State) (x0 y0 : Nat) (sp : List Byte) : (s.drawAt x0 y0 sp).i = s.i := rfl
@[simp] theorem State.drawAt_pc (s : State) (x0 y0 : Nat) (sp : List Byte) : (s.drawAt x0 y0 sp).pc = s.pc := rfl
@[simp] theorem State.drawAt_stack (s : State) (x0 y0 : Nat) (sp : List Byte) : (s.drawAt x0 y0 sp).stack = s.stack := rfl
@[simp] theorem State.drawAt_dt (s : State) (x0 y0 : Nat) (sp : List Byte) : (s.drawAt x0 y0 sp).dt = s.dt := rfl
@[simp] theorem State.drawAt_st (s : State) (x0 y0 : Nat) (sp : List Byte) : (s.drawAt x0 y0 sp).st = s.st := rfl
@[simp] theorem State.drawAt_keys (s : State) (x0 y0 : Nat) (sp : List Byte) : (s.drawAt x0 y0 sp).keys = s.keys := rfl
@[simp] theorem State.drawAt_fb (s : State) (x0 y0 : Nat) (sp : List Byte) : (s.drawAt x0 y0 sp).fb = (drawSprite (s.fb, false) x0 y0 sp).1 := rfl
@[simp] theorem State.drawAt_mem (s : State) (x0 y0 : Nat) (sp : List Byte) : (s.drawAt x0 y0 sp).mem = s.mem := rfl
@[simp] theorem State.drawAt_fault (s : State) (x0 y0 : Nat) (sp : List Byte) : (s.drawAt x0 y0 sp).fault = s.fault := rfl
@[simp] theorem State.drawAt_params (s : State) (x0 y0 : Nat) (sp : List Byte) : (s.drawAt x0 y0 sp).params = s.params := rfl
@[simp] theorem State.drawAt_draws (s : State) (x0 y0 : Nat) (sp : List Byte) : (s.drawAt x0 y0 sp).draws = s.draws := rfl

/-! ### placeWord -/

@[simp] theorem State.placeWord_v (s : State) (op : Word) : (s.placeWord op).v = s.v := rfl
@[simp] theorem State.placeWord_i (s : State) (op : Word) : (s.placeWord op).i = s.i := rfl
@[simp] theorem State.placeWord_pc (s : State) (op : Word) : (s.placeWord op).pc = s.fetchAddress := rfl
@[simp] theorem State.placeWord_stack (s : State) (op : Word) : (s.placeWord op).stack = s.stack := rfl
@[simp] theorem State.placeWord_dt (s : State) (op : Word) : (s.placeWord op).dt = s.dt := rfl
@[simp] theorem State.placeWord_st (s : State) (op : Word) : (s.placeWord op).st = s.st := rfl
@[simp] theorem State.placeWord_keys (s : State) (op : Word) : (s.placeWord op).keys = s.keys := rfl
@[simp] theorem State.placeWord_fb (s : State) (op : Word) : (s.placeWord op).fb = s.fb := rfl
@[simp] theorem State.placeWord_mem (s : State) (op : Word) : (s.placeWord op).mem = (s.mem.put s.fetchAddress.toNat (highByte op)).put (s.fetchAddress.toNat + 1) (lowByte op) := rfl
@[simp] theorem State.placeWord_fault (s : State) (op : Word) : (s.placeWord op).fault = none := rfl
@[simp] theorem State.placeWord_params (s : State) (op : Word) : (s.placeWord op).params = s.params := rfl
@[simp] theorem State.placeWord_draws (s : State) (op : Word) : (s.placeWord op).draws = s.draws := rfl

/-! ### skipIf -/

@[simp] theorem State.skipIf_v (s : State) (c : Bool) : (s.skipIf c).v = s.v := by cases c <;> rfl
@[simp] theorem State.skipIf_i (s : State) (c : Bool) : (s.skipIf c).i = s.i := by cases c <;> rfl
@[simp] theorem State.skipIf_pc (s : State) (c : Bool) : (s.skipIf c).pc = if c then s.pc + 2 else s.pc := by cases c <;> rfl
@[simp] theorem State.skipIf_stack (s : State) (c : Bool) : (s.skipIf c).stack = s.stack := by cases c <;> rfl
@[simp] theorem State.skipIf_dt (s : State) (c : Bool) : (s.skipIf c).dt = s.dt := by cases c <;> rfl
@[simp] theorem State.skipIf_st (s : State) (c : Bool) : (s.skipIf c).st = s.st := by cases c <;> rfl
@[simp] theorem State.skipIf_keys (s : State) (c : Bool) : (s.skipIf c).keys = s.keys := by cases c <;> rfl
@[simp] theorem State.skipIf_fb (s : State) (c : Bool) : (s.skipIf c).fb = s.fb := by cases c <;> rfl
@[simp] theorem State.skipIf_mem (s : State) (c : Bool) : (s.skipIf c).mem = s.mem := by cases c <;> rfl
@[simp] theorem State.skipIf_fault (s : State) (c : Bool) : (s.skipIf c).fault = s.fault := by cases c <;> rfl
@[simp] theorem State.skipIf_params (s : State) (c : Bool) : (s.skipIf c).params = s.params := by cases c <;> rfl
@[simp] theorem State.skipIf_draws (s : State) (c : Bool) : (s.skipIf c).draws = s.draws := by cases c <;> rfl

/-- A skip writes PC and nothing else. -/
theorem State.skipIf_eq (s : State) (c : Bool) : s.skipIf c = { s with pc := if c then s.pc + 2 else s.pc } := by
  cases c <;> rfl

/-! ### One general register -/

theorem State.reg_eq (s : State) (x : Reg) : s.reg x = s.v[x.val] := rfl

theorem State.reg_setReg (s : State) (x y : Reg) (b : Byte) : (s.setReg x b).reg y = if x = y then b else s.reg y := by
  simp only [State.reg, State.setReg, Fin.getElem_fin, Vector.getElem_set, Fin.ext_iff]

@[simp] theorem State.reg_setReg_same (s : State) (x : Reg) (b : Byte) : (s.setReg x b).reg x = b := by
  simp [State.reg_setReg]

theorem State.reg_setReg_other (s : State) {x y : Reg} (b : Byte) (h : y ≠ x) : (s.setReg x b).reg y = s.reg y := by
  simp [State.reg_setReg, Ne.symm h]

/-- The flag is written last, so VF reads as the flag whatever X is. -/
@[simp] theorem State.reg_setResultFlag_vf (s : State) (x : Reg) (b : Byte) (c : Bool) :
    (s.setResultFlag x b c).reg Reg.vf = flagByte c := by
  simp [State.setResultFlag, State.setFlag]

theorem State.reg_setResultFlag_dest (s : State) {x : Reg} (b : Byte) (c : Bool) (h : x ≠ Reg.vf) :
    (s.setResultFlag x b c).reg x = b := by
  simp [State.setResultFlag, State.setFlag, State.reg_setReg, h.symm]

theorem State.reg_setResultFlag_other (s : State) {x y : Reg} (b : Byte) (c : Bool) (hx : y ≠ x) (hf : y ≠ Reg.vf) :
    (s.setResultFlag x b c).reg y = s.reg y := by
  simp [State.setResultFlag, State.setFlag, State.reg_setReg, hx.symm, hf.symm]

/-- What loading bytes into the registers from V0 on leaves in one register. -/
theorem State.reg_loadRegs (s : State) (bs : List Byte) (y : Reg) :
    (s.loadRegs bs).reg y = (bs[y.val]?).getD (s.reg y) := by
  simp [State.reg, State.loadRegs]

theorem State.reg_drawAt_other (s : State) (x0 y0 : Nat) (sp : List Byte) {y : Reg} (h : y ≠ Reg.vf) :
    (s.drawAt x0 y0 sp).reg y = s.reg y := by
  simp only [State.drawAt, State.setFlag, State.reg_setReg_other _ _ h]
  rfl

theorem State.reg_drawAt_vf (s : State) (x0 y0 : Nat) (sp : List Byte) :
    (s.drawAt x0 y0 sp).reg Reg.vf = flagByte (drawSprite (s.fb, false) x0 y0 sp).2 := by
  simp [State.drawAt, State.setFlag]

/-- The registers an FX55 stores, one after the other. -/
theorem State.getElem?_regsTo (s : State) (x : Reg) (j : Nat) :
    (s.regsTo x)[j]? = if h : j ≤ x.val then some (s.reg ⟨j, by omega⟩) else none := by
  split
  · next h =>
    have hj : j < 16 := by omega
    rw [State.regsTo, List.getElem?_take, if_pos (by omega)]
    simp [State.reg, hj]
  · next h => rw [State.regsTo, List.getElem?_take, if_neg (by omega)]

@[simp] theorem State.length_regsTo (s : State) (x : Reg) : (s.regsTo x).length = x.val + 1 := by
  simp only [State.regsTo, List.length_take, Vector.length_toList]
  omega

end Sys2Proof.Machine
end

