-- ==== Sys2Proof/Laws/Operands.lean ====
section
/-! SUPPORT. One lemma per shared operation on operands, flags, stack and keys: everything it can answer. -/

namespace Sys2Proof.Machine

/-! ### Stack (40_control_flow.md R100, R102) -/

theorem State.push_room {s : State} (a : Word) (h : s.stack.length < s.params.stackDepth) :
    s.push a = .ok { s with stack := s.stack ++ [a] } := by
  simp [State.push, Nat.not_le.mpr h]

theorem State.push_full {s : State} (a : Word) (h : s.params.stackDepth ≤ s.stack.length) :
    s.push a = .error (.stackOverflow s.params.stackDepth) := by
  simp [State.push, h]

theorem State.pop_append {s : State} {rest : List Word} {top : Word} (h : s.stack = rest ++ [top]) :
    s.pop = .ok (top, { s with stack := rest }) := by
  simp [State.pop, h]

theorem State.pop_empty {s : State} (h : s.stack = []) : s.pop = .error (.stackUnderflow 0) := by
  simp [State.pop, h]

/-! ### Keys (44_keys_timers.md R182, R184) -/

theorem keyIndex_ok {k : Byte} {j : Fin 16} (h : k.toNat = j.val) : keyIndex k = .ok j := by
  have hj := j.isLt
  simp only [keyIndex, h, hj, dite_true]

theorem keyIndex_error {k : Byte} (h : 16 ≤ k.toNat) : keyIndex k = .error (.keyIndexOutOfRange k) := by
  simp only [keyIndex]
  rw [dif_neg (by omega)]

theorem lowestPressed_eq_none {keys : Vector Bool 16} : lowestPressed keys = none ↔ ∀ k : Fin 16, keys[k] = false := by
  simp [lowestPressed, List.find?_eq_none]

theorem lowestPressed_eq_some {keys : Vector Bool 16} {k : Fin 16} (hk : keys[k] = true)
    (hlow : ∀ j : Fin 16, j < k → keys[j] = false) : lowestPressed keys = some k := by
  cases h : lowestPressed keys with
  | none =>
    rw [lowestPressed_eq_none] at h
    simp [h k] at hk
  | some m =>
    have hm : keys[m] = true := by
      have := List.find?_some h
      simpa using this
    rcases lt_trichotomy m k with hlt | heq | hgt
    · simp [hlow m hlt] at hm
    · rw [heq]
    · exfalso
      rw [lowestPressed, List.find?_eq_some_iff_append] at h
      obtain ⟨-, as, bs, hab, has⟩ := h
      have hmem : k ∈ as := by
        have hk' : k ∈ as ++ m :: bs := hab ▸ List.mem_finRange k
        rcases List.mem_append.mp hk' with h | h
        · exact h
        · exfalso
          have hs : (as ++ m :: bs).Pairwise (· < ·) := hab ▸ List.sortedLT_finRange 16 |>.pairwise
          rw [List.pairwise_append] at hs
          have := List.pairwise_cons.mp hs.2.1
          rcases List.mem_cons.mp h with rfl | h
          · exact lt_irrefl _ hgt
          · exact lt_asymm hgt (this.1 k h)
      simpa [hk] using has k hmem

/-! ### Addresses (40_control_flow.md R107; 42_index_memory.md R151, R152, R153) -/

theorem indexedTarget_toNat {nnn : Word} (v0 : Byte) (h : fitsAddress nnn) :
    (indexedTarget nnn v0).toNat = nnn.toNat + v0.toNat := by
  have := v0.isLt
  simp only [fitsAddress] at h
  simp only [indexedTarget, BitVec.toNat_ofNat]
  omega

theorem indexSum_toNat (i : Word) (vx : Byte) : (indexSum i vx).toNat = (i.toNat + vx.toNat) % 65536 := by
  simp [indexSum]

theorem glyphAddress_toNat (vx : Byte) : (glyphAddress vx).toNat = 5 * vx.toNat := by
  have := vx.isLt
  simp only [glyphAddress, Config.fontBase, Config.glyphBytes, BitVec.toNat_ofNat]
  omega

@[simp] theorem bcdDigits_length (vx : Byte) : (bcdDigits vx).length = 3 := rfl

/-- The digits are the decimal digits, each below 10. -/
theorem bcdDigits_toNat (vx : Byte) : (bcdDigits vx).map BitVec.toNat = [vx.toNat / 100, vx.toNat / 10 % 10, vx.toNat % 10] := by
  have := vx.isLt
  simp only [bcdDigits, List.map_cons, List.map_nil, BitVec.toNat_ofNat, List.cons.injEq, and_true]
  omega

/-! ### Results and flags (41_alu.md R134) -/

@[simp] theorem flagByte_toNat (c : Bool) : (flagByte c).toNat = if c = true then 1 else 0 := by cases c <;> rfl

theorem sumByte_toNat (a b : Byte) : (sumByte a b).toNat = (a.toNat + b.toNat) % 256 := by
  simp [sumByte]

theorem diffByte_toNat (a b : Byte) : (diffByte a b).toNat = (a.toNat + 256 - b.toNat) % 256 := by
  have h1 := a.isLt
  have h2 := b.isLt
  simp only [diffByte, BitVec.toNat_ofInt]
  omega

theorem shiftRightByte_toNat (a : Byte) : (shiftRightByte a).toNat = a.toNat / 2 := by
  simp [shiftRightByte, Nat.shiftRight_eq_div_pow]

theorem shiftLeftByte_toNat (a : Byte) : (shiftLeftByte a).toNat = a.toNat * 2 % 256 := by
  simp [shiftLeftByte]

theorem lowBitFlag_toNat (a : Byte) : (flagByte (lowBitFlag a)).toNat = a.toNat % 2 := by
  rw [flagByte_toNat, lowBitFlag, BitVec.getLsbD, Nat.testBit_zero]
  rcases Nat.mod_two_eq_zero_or_one a.toNat with h | h <;> simp [h]

theorem highBitFlag_toNat (a : Byte) : (flagByte (highBitFlag a)).toNat = a.toNat / 128 := by
  have := a.isLt
  rw [flagByte_toNat, highBitFlag, BitVec.getLsbD, Nat.testBit_eq_decide_div_mod_eq]
  by_cases h : a.toNat / 128 = 1
  · simp [h]
  · have h0 : a.toNat / 128 = 0 := by omega
    simp [h0]

end Sys2Proof.Machine
end

