-- ==== Sys2Proof/Laws/Step.lean ====
section
/-! SUPPORT. What a step can do, one lemma per path of 30_encoding.md R79, and what exec can do to the latch. -/

namespace Sys2Proof.Machine

/-! ### The paths of a step -/

theorem stepReport_latched {s : State} {f : Fault} (h : s.fault = some f) : stepReport s = .next (s, .faulted f) := by
  simp [stepReport, h]

theorem stepReport_fetchFault {s : State} {addr : Nat} (h : s.fault = none) (hf : fetch16 s.mem s.pc.toNat = .error addr) :
    stepReport s = .next ({ s with fault := some (.memoryOutOfBounds .fetch addr s.pc) },
      .fault (.memoryOutOfBounds .fetch addr s.pc)) := by
  simp [stepReport, h, hf, State.takeFault, reportOf]

theorem stepReport_unknown {s : State} {op w : Word} (h : s.fault = none) (hf : fetch16 s.mem s.pc.toNat = .ok op)
    (hd : decodeWord op = .unknown w) :
    stepReport s = .next (s.advance, .event (.unknownOpcode (nibble0 w) (nibble1 w) (nibble2 w) (nibble3 w) s.pc)) := by
  simp [stepReport, h, hf, executeWord, hd, execUnknown, unknownEvent]

theorem stepReport_instr {s t : State} {op : Word} {i : Instr} (h : s.fault = none) (hf : fetch16 s.mem s.pc.toNat = .ok op)
    (hd : decodeWord op = .instr i) (he : exec i s.advance = .next t) : stepReport s = .next (t, reportOf t) := by
  simp [stepReport, h, hf, executeWord, hd, he]

/-- A step is the state part of its report. -/
theorem step_of_report {s t : State} {r : Report} (h : stepReport s = .next (t, r)) : step s = .next t := by
  simp [step, h, dropReport]

/-- The two bytes of a fetch in bounds. -/
theorem fetch16_of_bytes {m : Memory} {a : Nat} {hi lo : Byte} (h1 : memRead m a = .ok hi) (h2 : memRead m (a + 1) = .ok lo) :
    fetch16 m a = .ok (wordOfBytes hi lo) := by
  unfold memRead at h1 h2
  split at h1
  · split at h2
    · next hlt =>
      simp only [Config.memSize] at hlt
      cases h1
      cases h2
      rw [fetch16_eq, if_pos (by omega)]
    · cases h2
  · cases h1

/-- A fetch that answers is of two bytes in memory. -/
theorem fetch16_ok_bound {m : Memory} {a : Nat} {op : Word} (h : fetch16 m a = .ok op) : a + 2 ≤ 4096 := by
  rw [fetch16_eq] at h
  split at h
  · assumption
  · cases h

/-! ### Runs of steps -/

/-- A run whose first step answers a state goes on from there. -/
theorem runSteps_succ {s t : State} (n : Nat) (h : step s = .next t) : runSteps (n + 1) s = runSteps n t := by
  simp [runSteps, h]

/-- A state that steps to itself stays for ever. -/
theorem runSteps_stays {s : State} (n : Nat) (h : step s = .next s) : runSteps n s = .next s := by
  induction n with
  | zero => rfl
  | succ n ih => rw [runSteps_succ n h, ih]

/-! ### What exec can do -/

/-- Every instruction answers a next state. -/
theorem exec_completes (i : Instr) (s : State) : ∃ t, exec i s = .next t := by
  cases i <;>
    simp only [exec, execCls, execRet, execJp, execCall, execSeImm, execSneImm, execSeReg, execSneReg, execJpV0, execLdImm,
      execAddImm, execLdReg, execOr, execAnd, execXor, execAddReg, execSub, execShr, execSubn, execShl, execRnd, execLdI,
      execAddIVx, execLdFVx, execLdBVx, execLdMemVx, execLdVxMem, execDrw, execSkp, execSknp, execLdVxDt, execLdVxK,
      execLdDtVx, execLdStVx] <;>
    first
    | exact ⟨_, rfl⟩
    | (split <;> exact ⟨_, rfl⟩)

/-- The faults of the instructions, as `raise` takes them: each records the pc it is given and the info of its kind. -/
inductive RaisedBy (p : Params) : (Word → Fault) → Prop where
  | overflow : RaisedBy p (.stackOverflow p.stackDepth)
  | underflow : RaisedBy p (.stackUnderflow 0)
  | memory (k : AccessKind) (a : Nat) : RaisedBy p (.memoryOutOfBounds k (max a 4096))
  | key (k : Byte) (h : 16 ≤ k.toNat) : RaisedBy p (.keyIndexOutOfRange k)

theorem RaisedBy.pc_eq {p : Params} {f : Word → Fault} (h : RaisedBy p f) (a : Word) : (f a).pc = a := by
  cases h <;> rfl

theorem RaisedBy.sound {p : Params} {f : Word → Fault} (h : RaisedBy p f) (a : Word) : (f a).sound p = true := by
  cases h with
  | overflow => simp [Fault.sound]
  | underflow => simp [Fault.sound]
  | memory k a => simp [Fault.sound, Config.memSize]
  | key k h => simp [Fault.sound, h]

/-- A read run raises MemoryOutOfBounds or goes on with the bytes. -/
theorem State.withRead_cases (s : State) (a n : Nat) (use : List Byte → State) :
    (∃ f, RaisedBy s.params f ∧ s.withRead a n use = s.raise f) ∨
    ∃ bytes, bytes.length = n ∧ s.withRead a n use = use bytes := by
  by_cases h : n = 0 ∨ a + n ≤ 4096
  · exact .inr ⟨_, by simp, State.withRead_ok use h⟩
  · exact .inl ⟨_, .memory .read a, State.withRead_error use (by omega) (by omega)⟩

/-- A store raises MemoryOutOfBounds or writes memory in its canonical form and nothing else. -/
theorem State.store_cases (s : State) (a : Nat) (bytes : List Byte) :
    (∃ f, RaisedBy s.params f ∧ s.store a bytes = s.raise f) ∨
    ∃ m, s.store a bytes = { s with mem := m } ∧ (s.mem.wf = true → m.wf = true) := by
  by_cases h : bytes = [] ∨ a + bytes.length ≤ 4096
  · refine .inr ⟨_, State.store_ok h, fun hm => ?_⟩
    have := writeRun_eq s.mem a bytes
    rw [if_pos h] at this
    exact writeRun_wf this hm
  · rw [not_or] at h
    exact .inl ⟨_, .memory .write a, State.store_error h.1 (by omega)⟩

/-- The inversion of exec: an instruction either raises a fault, or leaves the latch, the parameters and the keys alone, keeps
memory in its canonical form, keeps the stack within STACK_DEPTH, and moves PC as its rule says. -/
theorem exec_cases {i : Instr} {s t : State} (h : exec i s = .next t) :
    (∃ f, RaisedBy s.params f ∧ t = s.raise f) ∨
    (t.fault = s.fault ∧ t.params = s.params ∧ t.keys = s.keys ∧ (s.mem.wf = true → t.mem.wf = true) ∧
      (t.stack = s.stack ∨ (t.stack = s.stack ++ [s.pc] ∧ s.stack.length < s.params.stackDepth) ∨
        t.stack = s.stack.dropLast) ∧
      (t.pc = s.pc ∨ t.pc = s.pc + 2 ∨ t.pc = s.pc - 2 ∨ t.pc ∈ s.stack ∨
        (∃ nnn, (i = .jp nnn ∨ i = .call nnn) ∧ t.pc = nnn) ∨ ∃ nnn, i = .jpV0 nnn ∧ t.pc = indexedTarget nnn (s.reg 0))) := by
  have skip : ∀ c, t = s.skipIf c → t.pc = s.pc ∨ t.pc = s.pc + 2 := by
    rintro c rfl
    cases c
    · exact .inl rfl
    · exact .inr rfl
  cases i with
  | cls | ldImm | addImm | ldReg | orReg | andReg | xorReg | addReg | sub | shr | subn | shl | ldI | rnd | ldVxDt | ldDtVx
  | ldStVx | addIVx | ldFVx =>
    cases h
    exact .inr ⟨rfl, rfl, rfl, id, .inl rfl, .inl rfl⟩
  | seImm | sneImm | seReg | sneReg =>
    cases h
    refine .inr ⟨by simp, by simp, by simp, by simp, by simp, ?_⟩
    rcases skip _ rfl with h | h
    · exact .inl h
    · exact .inr (.inl h)
  | jp nnn =>
    cases h
    exact .inr ⟨rfl, rfl, rfl, id, .inl rfl, .inr (.inr (.inr (.inr (.inl ⟨nnn, .inl rfl, rfl⟩))))⟩
  | jpV0 nnn =>
    cases h
    exact .inr ⟨rfl, rfl, rfl, id, .inl rfl, .inr (.inr (.inr (.inr (.inr ⟨nnn, rfl, rfl⟩))))⟩
  | call nnn =>
    simp only [exec, execCall] at h
    by_cases hs : s.stack.length < s.params.stackDepth
    · rw [State.push_room _ hs] at h
      cases h
      exact .inr ⟨rfl, rfl, rfl, id, .inr (.inl ⟨rfl, hs⟩), .inr (.inr (.inr (.inr (.inl ⟨nnn, .inr rfl, rfl⟩))))⟩
    · rw [State.push_full _ (by omega)] at h
      cases h
      exact .inl ⟨_, .overflow, rfl⟩
  | ret =>
    simp only [exec, execRet] at h
    rcases List.eq_nil_or_concat s.stack with hs | ⟨rest, top, hs⟩
    · rw [State.pop_empty hs] at h
      cases h
      exact .inl ⟨_, .underflow, rfl⟩
    · rw [List.concat_eq_append] at hs
      rw [State.pop_append hs] at h
      cases h
      exact .inr ⟨rfl, rfl, rfl, id, .inr (.inr (by simp [hs])), .inr (.inr (.inr (.inl (by simp [hs]))))⟩
  | drw x y n =>
    simp only [exec, execDrw, Host.Outcome.next.injEq] at h
    rcases State.withRead_cases s s.base n (s.drawAt (s.reg x).toNat (s.reg y).toNat) with ⟨f, hf, e⟩ | ⟨bytes, -, e⟩
    · exact .inl ⟨f, hf, h ▸ e⟩
    · rw [e] at h
      subst h
      exact .inr ⟨rfl, rfl, rfl, id, .inl rfl, .inl rfl⟩
  | skp x | sknp x =>
    simp only [exec, execSkp, execSknp] at h
    by_cases hk : (s.reg x).toNat < 16
    · rw [keyIndex_ok (j := ⟨_, hk⟩) rfl] at h
      cases h
      refine .inr ⟨by simp, by simp, by simp, by simp, by simp, ?_⟩
      rcases skip _ rfl with h | h
      · exact .inl h
      · exact .inr (.inl h)
    · rw [keyIndex_error (by omega)] at h
      cases h
      exact .inl ⟨_, .key _ (by omega), rfl⟩
  | ldVxK x =>
    simp only [exec, execLdVxK] at h
    split at h
    · cases h
      exact .inr ⟨rfl, rfl, rfl, id, .inl rfl, .inl rfl⟩
    · cases h
      exact .inr ⟨rfl, rfl, rfl, id, .inl rfl, .inr (.inr (.inl rfl))⟩
  | ldBVx x | ldMemVx x =>
    simp only [exec, execLdBVx, execLdMemVx, Host.Outcome.next.injEq] at h
    rcases State.store_cases s s.base _ with ⟨f, hf, e⟩ | ⟨m, e, hm⟩
    · exact .inl ⟨f, hf, h ▸ e⟩
    · rw [e] at h
      subst h
      exact .inr ⟨rfl, rfl, rfl, hm, .inl rfl, .inl rfl⟩
  | ldVxMem x =>
    simp only [exec, execLdVxMem, Host.Outcome.next.injEq] at h
    rcases State.withRead_cases s s.base (x.val + 1) s.loadRegs with ⟨f, hf, e⟩ | ⟨bytes, -, e⟩
    · exact .inl ⟨f, hf, h ▸ e⟩
    · rw [e] at h
      subst h
      exact .inr ⟨by simp, by simp, by simp, by simp, .inl (by simp), .inl (by simp)⟩

end Sys2Proof.Machine
end

