-- ==== Sys2Proof/Laws/Exec.lean ====
section
/-! SUPPORT. The instructions whose meaning has more than one path, as equations, one per path. -/

namespace Sys2Proof.Machine

theorem exec_ret_pop {s : State} {rest : List Word} {top : Word} (h : s.stack = rest ++ [top]) :
    exec .ret s = .next { s with stack := rest, pc := top } := by
  simp only [exec, execRet, State.pop_append h]
  rfl

theorem exec_ret_empty {s : State} (h : s.stack = []) : exec .ret s = .next (s.raise (.stackUnderflow 0)) := by
  simp only [exec, execRet, State.pop_empty h]

theorem exec_call_room {s : State} (nnn : Word) (h : s.stack.length < s.params.stackDepth) :
    exec (.call nnn) s = .next { s with stack := s.stack ++ [s.pc], pc := nnn } := by
  simp only [exec, execCall, State.push_room _ h]
  rfl

theorem exec_call_full {s : State} (nnn : Word) (h : s.params.stackDepth ≤ s.stack.length) :
    exec (.call nnn) s = .next (s.raise (.stackOverflow s.params.stackDepth)) := by
  simp only [exec, execCall, State.push_full _ h]

theorem exec_skp_key {s : State} {x : Reg} {k : Fin 16} (h : (s.reg x).toNat = k.val) :
    exec (.skp x) s = .next { s with pc := if s.keys[k] then s.pc + 2 else s.pc } := by
  simp only [exec, execSkp, keyIndex_ok h, State.skipIf_eq]

theorem exec_sknp_key {s : State} {x : Reg} {k : Fin 16} (h : (s.reg x).toNat = k.val) :
    exec (.sknp x) s = .next { s with pc := if s.keys[k] then s.pc else s.pc + 2 } := by
  simp only [exec, execSknp, keyIndex_ok h, State.skipIf_eq]
  cases s.keys[k] <;> rfl

theorem exec_skp_fault {s : State} {x : Reg} (h : 16 ≤ (s.reg x).toNat) :
    exec (.skp x) s = .next (s.raise (.keyIndexOutOfRange (s.reg x))) := by
  simp only [exec, execSkp, keyIndex_error h]

theorem exec_sknp_fault {s : State} {x : Reg} (h : 16 ≤ (s.reg x).toNat) :
    exec (.sknp x) s = .next (s.raise (.keyIndexOutOfRange (s.reg x))) := by
  simp only [exec, execSknp, keyIndex_error h]

theorem exec_ldVxK_key {s : State} {k : Fin 16} (x : Reg) (hk : s.keys[k] = true)
    (hlow : ∀ j : Fin 16, j < k → s.keys[j] = false) :
    exec (.ldVxK x) s = .next (s.setReg x (BitVec.ofNat 8 k.val)) := by
  simp only [exec, execLdVxK, lowestPressed_eq_some hk hlow]

theorem exec_ldVxK_none {s : State} (x : Reg) (h : ∀ k : Fin 16, s.keys[k] = false) :
    exec (.ldVxK x) s = .next s.retract := by
  simp only [exec, execLdVxK, lowestPressed_eq_none.2 h]

theorem exec_ldBVx_store {s : State} (x : Reg) (h : s.i.toNat + 3 ≤ 4096) :
    exec (.ldBVx x) s = .next { s with mem := Memory.placeAt s.mem s.i.toNat (bcdDigits (s.reg x)) } := by
  simp only [exec, execLdBVx, State.base]
  rw [State.store_ok (.inr (by simpa using h))]

theorem exec_ldBVx_fault {s : State} (x : Reg) (h : 4096 < s.i.toNat + 3) :
    exec (.ldBVx x) s = .next (s.raise (.memoryOutOfBounds .write (max s.i.toNat 4096))) := by
  simp only [exec, execLdBVx, State.base]
  rw [State.store_error (by simp [bcdDigits]) (by simpa using h)]

theorem exec_ldMemVx_store {s : State} {x : Reg} (h : s.i.toNat + x.val < 4096) :
    exec (.ldMemVx x) s = .next { s with mem := Memory.placeAt s.mem s.i.toNat (s.regsTo x) } := by
  simp only [exec, execLdMemVx, State.base]
  rw [State.store_ok (.inr (by rw [State.length_regsTo]; omega))]

theorem exec_ldMemVx_fault {s : State} {x : Reg} (h : 4096 ≤ s.i.toNat + x.val) :
    exec (.ldMemVx x) s = .next (s.raise (.memoryOutOfBounds .write (max s.i.toNat 4096))) := by
  simp only [exec, execLdMemVx, State.base]
  rw [State.store_error (fun e => by simpa [e] using State.length_regsTo s x) (by rw [State.length_regsTo]; omega)]

theorem exec_ldVxMem_load {s : State} {x : Reg} (h : s.i.toNat + x.val < 4096) :
    exec (.ldVxMem x) s =
      .next (s.loadRegs ((List.range (x.val + 1)).map fun j => s.mem.cell (s.i.toNat + j))) := by
  simp only [exec, execLdVxMem, State.base]
  rw [State.withRead_ok _ (.inr (by omega))]

theorem exec_ldVxMem_fault {s : State} {x : Reg} (h : 4096 ≤ s.i.toNat + x.val) :
    exec (.ldVxMem x) s = .next (s.raise (.memoryOutOfBounds .read (max s.i.toNat 4096))) := by
  simp only [exec, execLdVxMem, State.base]
  rw [State.withRead_error _ (by omega) (by omega)]

theorem exec_drw_draw {s : State} (x y : Reg) {n : Nat} (h : n = 0 ∨ s.i.toNat + n ≤ 4096) :
    exec (.drw x y n) s =
      .next (s.drawAt (s.reg x).toNat (s.reg y).toNat ((List.range n).map fun j => s.mem.cell (s.i.toNat + j))) := by
  simp only [exec, execDrw, State.base]
  rw [State.withRead_ok _ h]

theorem exec_drw_fault {s : State} (x y : Reg) {n : Nat} (hn : n ≠ 0) (h : 4096 < s.i.toNat + n) :
    exec (.drw x y n) s = .next (s.raise (.memoryOutOfBounds .read (max s.i.toNat 4096))) := by
  simp only [exec, execDrw, State.base]
  rw [State.withRead_error _ hn h]

/-- The byte stored for one register of a dump. -/
theorem cell_dump (s : State) {x j : Reg} (h : j.val ≤ x.val) :
    (Memory.placeAt s.mem s.i.toNat (s.regsTo x)).cell (s.i.toNat + j.val) = s.reg j := by
  have e := State.getElem?_regsTo s x j.val
  rw [dif_pos h] at e
  rw [Memory.cell_placeAt, if_pos (by omega), Nat.add_sub_cancel_left, e]
  rfl

end Sys2Proof.Machine
end

