-- ==== Sys2Proof/Laws/HostOps.lean ====
section
/-! SUPPORT. What each host operation does to the state, one lemma each. -/

namespace Sys2Proof.Machine

/-- A delay tick is one subtraction that saturates at 0 (60_exceptions.md R220). -/
theorem State.tickDelay_eq (s : State) : s.tickDelay = { s with dt := BitVec.ofNat 8 (s.dt.toNat - 1) } := by
  have h : BitVec.ofNat 8 (s.dt.toNat - 1) = if s.dt.toNat > 0 then s.dt - 1 else s.dt := by
    refine BitVec.eq_of_toNat_eq ?_
    have := s.dt.isLt
    split
    · simp; omega
    · simp only [BitVec.toNat_ofNat]; omega
  rw [h]
  unfold State.tickDelay
  split <;> rfl

/-- A sound tick is one subtraction that saturates at 0 (60_exceptions.md R220). -/
theorem State.tickSound_eq (s : State) : s.tickSound = { s with st := BitVec.ofNat 8 (s.st.toNat - 1) } := by
  have h : BitVec.ofNat 8 (s.st.toNat - 1) = if s.st.toNat > 0 then s.st - 1 else s.st := by
    refine BitVec.eq_of_toNat_eq ?_
    have := s.st.isLt
    split
    · simp; omega
    · simp only [BitVec.toNat_ofNat]; omega
  rw [h]
  unfold State.tickSound
  split <;> rfl

theorem State.press_inside (s : State) (k : Fin 16) : s.press k.val = .next { s with keys := s.keys.set k.val true } := by
  simp [State.press, State.setKey]

theorem State.release_inside (s : State) (k : Fin 16) : s.release k.val = .next { s with keys := s.keys.set k.val false } := by
  simp [State.release, State.setKey]

theorem State.press_outside (s : State) {k : Nat} (h : 16 ≤ k) : s.press k = .refused (.keyOutOfRange k) := by
  simp [State.press, State.setKey, Nat.not_lt.mpr h]

theorem State.release_outside (s : State) {k : Nat} (h : 16 ≤ k) : s.release k = .refused (.keyOutOfRange k) := by
  simp [State.release, State.setKey, Nat.not_lt.mpr h]

theorem State.resetWith_fits (s : State) {rom : List Byte} (h : rom.length ≤ 3584) :
    s.resetWith rom =
      .next { State.reset with mem := resetMemory s.params.fontData rom, params := s.params, draws := s.draws } := by
  simp [State.resetWith, Config.maxRomLen, h]

theorem State.resetWith_long (s : State) {rom : List Byte} (h : 3584 < rom.length) :
    s.resetWith rom = .refused (.romTooLarge rom.length) := by
  simp [State.resetWith, Config.maxRomLen, Nat.not_le.mpr h]

/-- Above the font every unlisted address reads as zero (10_state.md R40). -/
theorem unlisted_above {a : Nat} (h : 80 ≤ a) : unlisted a = 0 := by
  rw [unlisted, List.getElem?_eq_none (by simpa [Config.fontData] using h)]
  rfl

/-- A schedule whose first operation answers goes on from there. -/
theorem runOps_cons {op : HostOp} {ops : List HostOp} {s t u : State} {a : Answer} {as : List Answer}
    (h : perform op s = .next (t, a)) (h' : runOps ops t = .next (u, as)) : runOps (op :: ops) s = .next (u, a :: as) := by
  simp [runOps, h, h']

end Sys2Proof.Machine
end

