-- ==== Sys2Proof/Laws/PerInstr.lean ====
section
/-! SUPPORT. A family of statements made per instruction: the encoding of a well-formed instruction carries the fixed bits of its row of the opcode table (30_encoding.md R76). -/

namespace Sys2Proof.Laws

/-- The fixed bits of an instruction's row of spec/opcode_table.json, each as its highest bit, its lowest bit and its value. -/
def RowShape.fixedBits : Instr → List (Nat × Nat × Nat)
  | .cls => [(15, 0, 0xE0)]
  | .ret => [(15, 0, 0xEE)]
  | .jp _ => [(15, 12, 0x1)]
  | .call _ => [(15, 12, 0x2)]
  | .seImm _ _ => [(15, 12, 0x3)]
  | .sneImm _ _ => [(15, 12, 0x4)]
  | .seReg _ _ => [(3, 0, 0x0), (15, 12, 0x5)]
  | .ldImm _ _ => [(15, 12, 0x6)]
  | .addImm _ _ => [(15, 12, 0x7)]
  | .ldReg _ _ => [(3, 0, 0x0), (15, 12, 0x8)]
  | .orReg _ _ => [(3, 0, 0x1), (15, 12, 0x8)]
  | .andReg _ _ => [(3, 0, 0x2), (15, 12, 0x8)]
  | .xorReg _ _ => [(3, 0, 0x3), (15, 12, 0x8)]
  | .addReg _ _ => [(3, 0, 0x4), (15, 12, 0x8)]
  | .sub _ _ => [(3, 0, 0x5), (15, 12, 0x8)]
  | .shr _ _ => [(3, 0, 0x6), (15, 12, 0x8)]
  | .subn _ _ => [(3, 0, 0x7), (15, 12, 0x8)]
  | .shl _ _ => [(3, 0, 0xE), (15, 12, 0x8)]
  | .sneReg _ _ => [(3, 0, 0x0), (15, 12, 0x9)]
  | .ldI _ => [(15, 12, 0xA)]
  | .jpV0 _ => [(15, 12, 0xB)]
  | .rnd _ _ => [(15, 12, 0xC)]
  | .drw _ _ _ => [(15, 12, 0xD)]
  | .skp _ => [(7, 0, 0x9E), (15, 12, 0xE)]
  | .sknp _ => [(7, 0, 0xA1), (15, 12, 0xE)]
  | .ldVxDt _ => [(7, 0, 0x7), (15, 12, 0xF)]
  | .ldVxK _ => [(7, 0, 0xA), (15, 12, 0xF)]
  | .ldDtVx _ => [(7, 0, 0x15), (15, 12, 0xF)]
  | .ldStVx _ => [(7, 0, 0x18), (15, 12, 0xF)]
  | .addIVx _ => [(7, 0, 0x1E), (15, 12, 0xF)]
  | .ldFVx _ => [(7, 0, 0x29), (15, 12, 0xF)]
  | .ldBVx _ => [(7, 0, 0x33), (15, 12, 0xF)]
  | .ldMemVx _ => [(7, 0, 0x55), (15, 12, 0xF)]
  | .ldVxMem _ => [(7, 0, 0x65), (15, 12, 0xF)]

/-- The value of the bits hi to lo of a word. -/
def RowShape.bits (op : Word) (hi lo : Nat) : Nat := op.toNat / 2 ^ lo % 2 ^ (hi + 1 - lo)

/-- Every fixed bit field of the row stands in the encoding. -/
def RowShape.Statement (i : Instr) : Prop :=
  i.wellFormed = true → ∀ f ∈ RowShape.fixedBits i, RowShape.bits (encode i) f.1 f.2.1 = f.2.2

/-! ### The fixed bits of each format (30_encoding.md R72) -/

theorem RowShape.bits_nnn {d : Nat} {nnn : Word} (hd : d < 16) (h : fitsAddress nnn) :
    RowShape.bits (encodeNNN d nnn) 15 12 = d := by
  have hn : nnn.toNat < 0x1000 := h
  simp only [RowShape.bits, encodeNNN_toNat hd h]
  omega

theorem RowShape.bits_xkk {d : Nat} (x : Reg) (kk : Byte) (hd : d < 16) : RowShape.bits (encodeXKK d x kk) 15 12 = d := by
  have h1 := x.isLt
  have h2 := kk.isLt
  simp only [RowShape.bits, encodeXKK_toNat x kk hd]
  omega

theorem RowShape.bits_xyn {d n : Nat} (x y : Reg) (hd : d < 16) (hn : n < 16) :
    RowShape.bits (encodeXYN d x y n) 3 0 = n ∧ RowShape.bits (encodeXYN d x y n) 15 12 = d := by
  have h1 := x.isLt
  have h2 := y.isLt
  simp only [RowShape.bits, encodeXYN_toNat x y hd hn]
  omega

theorem RowShape.bits_xsub {d low : Nat} (x : Reg) (hd : d < 16) (hl : low < 256) :
    RowShape.bits (encodeXSUB d x low) 7 0 = low ∧ RowShape.bits (encodeXSUB d x low) 15 12 = d := by
  have h1 := x.isLt
  simp only [RowShape.bits, encodeXSUB_toNat x hd hl]
  omega

theorem RowShape.both {op : Word} {h1 l1 v1 h2 l2 v2 : Nat} (h : RowShape.bits op h1 l1 = v1 ∧ RowShape.bits op h2 l2 = v2) :
    ∀ f ∈ [(h1, l1, v1), (h2, l2, v2)], RowShape.bits op f.1 f.2.1 = f.2.2 := by
  simpa using h

/-! ### One lemma per constructor -/

theorem RowShape.cls : RowShape.Statement .cls := by
  intro _; decide

theorem RowShape.ret : RowShape.Statement .ret := by
  intro _; decide

theorem RowShape.jp (nnn : Word) : RowShape.Statement (.jp nnn) := fun h =>
  List.forall_mem_singleton.2 (RowShape.bits_nnn (d := 0x1) (by decide) (of_decide_eq_true h))

theorem RowShape.call (nnn : Word) : RowShape.Statement (.call nnn) := fun h =>
  List.forall_mem_singleton.2 (RowShape.bits_nnn (d := 0x2) (by decide) (of_decide_eq_true h))

theorem RowShape.seImm (x : Reg) (kk : Byte) : RowShape.Statement (.seImm x kk) := fun _ =>
  List.forall_mem_singleton.2 (RowShape.bits_xkk (d := 0x3) x kk (by decide))

theorem RowShape.sneImm (x : Reg) (kk : Byte) : RowShape.Statement (.sneImm x kk) := fun _ =>
  List.forall_mem_singleton.2 (RowShape.bits_xkk (d := 0x4) x kk (by decide))

theorem RowShape.seReg (x : Reg) (y : Reg) : RowShape.Statement (.seReg x y) := fun _ =>
  RowShape.both (RowShape.bits_xyn (d := 0x5) (n := 0x0) x y (by decide) (by decide))

theorem RowShape.ldImm (x : Reg) (kk : Byte) : RowShape.Statement (.ldImm x kk) := fun _ =>
  List.forall_mem_singleton.2 (RowShape.bits_xkk (d := 0x6) x kk (by decide))

theorem RowShape.addImm (x : Reg) (kk : Byte) : RowShape.Statement (.addImm x kk) := fun _ =>
  List.forall_mem_singleton.2 (RowShape.bits_xkk (d := 0x7) x kk (by decide))

theorem RowShape.ldReg (x : Reg) (y : Reg) : RowShape.Statement (.ldReg x y) := fun _ =>
  RowShape.both (RowShape.bits_xyn (d := 0x8) (n := 0x0) x y (by decide) (by decide))

theorem RowShape.orReg (x : Reg) (y : Reg) : RowShape.Statement (.orReg x y) := fun _ =>
  RowShape.both (RowShape.bits_xyn (d := 0x8) (n := 0x1) x y (by decide) (by decide))

theorem RowShape.andReg (x : Reg) (y : Reg) : RowShape.Statement (.andReg x y) := fun _ =>
  RowShape.both (RowShape.bits_xyn (d := 0x8) (n := 0x2) x y (by decide) (by decide))

theorem RowShape.xorReg (x : Reg) (y : Reg) : RowShape.Statement (.xorReg x y) := fun _ =>
  RowShape.both (RowShape.bits_xyn (d := 0x8) (n := 0x3) x y (by decide) (by decide))

theorem RowShape.addReg (x : Reg) (y : Reg) : RowShape.Statement (.addReg x y) := fun _ =>
  RowShape.both (RowShape.bits_xyn (d := 0x8) (n := 0x4) x y (by decide) (by decide))

theorem RowShape.sub (x : Reg) (y : Reg) : RowShape.Statement (.sub x y) := fun _ =>
  RowShape.both (RowShape.bits_xyn (d := 0x8) (n := 0x5) x y (by decide) (by decide))

theorem RowShape.shr (x : Reg) (y : Reg) : RowShape.Statement (.shr x y) := fun _ =>
  RowShape.both (RowShape.bits_xyn (d := 0x8) (n := 0x6) x y (by decide) (by decide))

theorem RowShape.subn (x : Reg) (y : Reg) : RowShape.Statement (.subn x y) := fun _ =>
  RowShape.both (RowShape.bits_xyn (d := 0x8) (n := 0x7) x y (by decide) (by decide))

theorem RowShape.shl (x : Reg) (y : Reg) : RowShape.Statement (.shl x y) := fun _ =>
  RowShape.both (RowShape.bits_xyn (d := 0x8) (n := 0xE) x y (by decide) (by decide))

theorem RowShape.sneReg (x : Reg) (y : Reg) : RowShape.Statement (.sneReg x y) := fun _ =>
  RowShape.both (RowShape.bits_xyn (d := 0x9) (n := 0x0) x y (by decide) (by decide))

theorem RowShape.ldI (nnn : Word) : RowShape.Statement (.ldI nnn) := fun h =>
  List.forall_mem_singleton.2 (RowShape.bits_nnn (d := 0xA) (by decide) (of_decide_eq_true h))

theorem RowShape.jpV0 (nnn : Word) : RowShape.Statement (.jpV0 nnn) := fun h =>
  List.forall_mem_singleton.2 (RowShape.bits_nnn (d := 0xB) (by decide) (of_decide_eq_true h))

theorem RowShape.rnd (x : Reg) (kk : Byte) : RowShape.Statement (.rnd x kk) := fun _ =>
  List.forall_mem_singleton.2 (RowShape.bits_xkk (d := 0xC) x kk (by decide))

theorem RowShape.drw (x : Reg) (y : Reg) (n : Nat) : RowShape.Statement (.drw x y n) := fun h =>
  List.forall_mem_singleton.2 ((RowShape.bits_xyn (d := 0xD) x y (by decide) (of_decide_eq_true h)).2)

theorem RowShape.skp (x : Reg) : RowShape.Statement (.skp x) := fun _ =>
  RowShape.both (RowShape.bits_xsub (d := 0xE) (low := 0x9E) x (by decide) (by decide))

theorem RowShape.sknp (x : Reg) : RowShape.Statement (.sknp x) := fun _ =>
  RowShape.both (RowShape.bits_xsub (d := 0xE) (low := 0xA1) x (by decide) (by decide))

theorem RowShape.ldVxDt (x : Reg) : RowShape.Statement (.ldVxDt x) := fun _ =>
  RowShape.both (RowShape.bits_xsub (d := 0xF) (low := 0x07) x (by decide) (by decide))

theorem RowShape.ldVxK (x : Reg) : RowShape.Statement (.ldVxK x) := fun _ =>
  RowShape.both (RowShape.bits_xsub (d := 0xF) (low := 0x0A) x (by decide) (by decide))

theorem RowShape.ldDtVx (x : Reg) : RowShape.Statement (.ldDtVx x) := fun _ =>
  RowShape.both (RowShape.bits_xsub (d := 0xF) (low := 0x15) x (by decide) (by decide))

theorem RowShape.ldStVx (x : Reg) : RowShape.Statement (.ldStVx x) := fun _ =>
  RowShape.both (RowShape.bits_xsub (d := 0xF) (low := 0x18) x (by decide) (by decide))

theorem RowShape.addIVx (x : Reg) : RowShape.Statement (.addIVx x) := fun _ =>
  RowShape.both (RowShape.bits_xsub (d := 0xF) (low := 0x1E) x (by decide) (by decide))

theorem RowShape.ldFVx (x : Reg) : RowShape.Statement (.ldFVx x) := fun _ =>
  RowShape.both (RowShape.bits_xsub (d := 0xF) (low := 0x29) x (by decide) (by decide))

theorem RowShape.ldBVx (x : Reg) : RowShape.Statement (.ldBVx x) := fun _ =>
  RowShape.both (RowShape.bits_xsub (d := 0xF) (low := 0x33) x (by decide) (by decide))

theorem RowShape.ldMemVx (x : Reg) : RowShape.Statement (.ldMemVx x) := fun _ =>
  RowShape.both (RowShape.bits_xsub (d := 0xF) (low := 0x55) x (by decide) (by decide))

theorem RowShape.ldVxMem (x : Reg) : RowShape.Statement (.ldVxMem x) := fun _ =>
  RowShape.both (RowShape.bits_xsub (d := 0xF) (low := 0x65) x (by decide) (by decide))

end Sys2Proof.Laws
end

