-- ==== Sys2Proof/Tests/Slice0.lean ====
section
/-! SUPPORT. Tests of single words and single steps, each with its expected result taken from spec/ (95_test_vectors.md unless the comment names another file), and for every statement of Certificates/Slice0/Obligations.lean that has hypotheses a witness that meets them. -/

namespace Sys2Proof.Tests

open Sys2Proof.Machine

/-! ### Builders -/

/-- The state after reset with some registers set. -/
def regs (rs : List (Reg × Byte)) : State := rs.foldl (fun s p => s.setReg p.1 p.2) State.reset

/-- s with bytes in memory from an address on. -/
def bytesAt (s : State) (a : Nat) (bs : List Byte) : State := { s with mem := Memory.placeAt s.mem a bs }

/-- s with some keys pressed. -/
def pressed (s : State) (ks : List (Fin 16)) : State := { s with keys := ks.foldl (fun v k => v.set k.val true) s.keys }

/-- s with some pixels set. -/
def lit (s : State) (ps : List (Fin 64 × Fin 32)) : State :=
  { s with fb := ps.foldl (fun f p => f.setPixel p.1 p.2 true) s.fb }

/-- The next state of an outcome, with whatever is answered beside it. -/
def nextOf {α : Type} : Host.Outcome α Fault Refusal → Option α
  | .next a => some a
  | .fault _ => none
  | .refused _ => none

/-- The state and the report after one step of the word w, placed where s fetches. -/
def runWord (s : State) (w : Nat) : Option (State × Report) := nextOf (stepReport (s.withFetchWord 16 w))

/-- A view of the state after one step of the word w. -/
def seen {α : Type} (s : State) (w : Nat) (view : State → α) : Option α := (runWord s w).map fun p => view p.1

/-- What one step of the word w reports. -/
def reported (s : State) (w : Nat) : Option Report := (runWord s w).map Prod.snd

/-- n bytes of memory from an address on. -/
def bytesOf (s : State) (a n : Nat) : List Byte := (List.range n).map fun j => s.mem.cell (a + j)

/-! ### Ill-formed instructions (30_encoding.md R73, R74) -/

theorem test_wf_jp : (Instr.jp 0xFFF).wellFormed = true ∧ (Instr.jp 0x1000).wellFormed = false := by decide
theorem test_wf_call : (Instr.call 0xFFF).wellFormed = true ∧ (Instr.call 0x1000).wellFormed = false := by decide
theorem test_wf_ldI : (Instr.ldI 0xFFF).wellFormed = true ∧ (Instr.ldI 0xFFFF).wellFormed = false := by decide
theorem test_wf_jpV0 : (Instr.jpV0 0xFFF).wellFormed = true ∧ (Instr.jpV0 0x8000).wellFormed = false := by decide
theorem test_wf_drw : (Instr.drw 0 15 15).wellFormed = true ∧ (Instr.drw 0 15 16).wellFormed = false := by decide

/-! ### Every constructor's word, written out from the pattern column of the opcode table (30_encoding.md R75, R76) -/

theorem test_decode_fixed : decodeWord 0x00E0 = .instr .cls ∧ decodeWord 0x00EE = .instr .ret := by decide
theorem test_decode_nnn : decodeWord 0x1ABC = .instr (.jp 0xABC) ∧ decodeWord 0x2210 = .instr (.call 0x210) ∧
    decodeWord 0xA123 = .instr (.ldI 0x123) ∧ decodeWord 0xBFFF = .instr (.jpV0 0xFFF) := by decide
theorem test_decode_xkk : decodeWord 0x3F07 = .instr (.seImm 0xF 0x07) ∧ decodeWord 0x4312 = .instr (.sneImm 3 0x12) ∧
    decodeWord 0x6A42 = .instr (.ldImm 0xA 0x42) ∧ decodeWord 0x70FF = .instr (.addImm 0 0xFF) ∧
    decodeWord 0xC1F0 = .instr (.rnd 1 0xF0) := by decide
theorem test_decode_xy : decodeWord 0x5120 = .instr (.seReg 1 2) ∧ decodeWord 0x9340 = .instr (.sneReg 3 4) := by decide
theorem test_decode_alu : decodeWord 0x8120 = .instr (.ldReg 1 2) ∧ decodeWord 0x8341 = .instr (.orReg 3 4) ∧
    decodeWord 0x8562 = .instr (.andReg 5 6) ∧ decodeWord 0x8783 = .instr (.xorReg 7 8) ∧
    decodeWord 0x89A4 = .instr (.addReg 9 0xA) ∧ decodeWord 0x8BC5 = .instr (.sub 0xB 0xC) ∧
    decodeWord 0x8DE6 = .instr (.shr 0xD 0xE) ∧ decodeWord 0x8F07 = .instr (.subn 0xF 0) ∧
    decodeWord 0x81AE = .instr (.shl 1 0xA) := by decide
theorem test_decode_draw : decodeWord 0xD12F = .instr (.drw 1 2 15) ∧ decodeWord 0xDEF0 = .instr (.drw 0xE 0xF 0) := by decide
theorem test_decode_keys : decodeWord 0xE39E = .instr (.skp 3) ∧ decodeWord 0xE4A1 = .instr (.sknp 4) := by decide
theorem test_decode_f : decodeWord 0xF107 = .instr (.ldVxDt 1) ∧ decodeWord 0xF20A = .instr (.ldVxK 2) ∧
    decodeWord 0xF315 = .instr (.ldDtVx 3) ∧ decodeWord 0xF418 = .instr (.ldStVx 4) ∧ decodeWord 0xF51E = .instr (.addIVx 5) ∧
    decodeWord 0xF629 = .instr (.ldFVx 6) ∧ decodeWord 0xF733 = .instr (.ldBVx 7) ∧ decodeWord 0xF855 = .instr (.ldMemVx 8) ∧
    decodeWord 0xF965 = .instr (.ldVxMem 9) := by decide
/-- 30_encoding.md R77, one word of each kind, at the edges of the known words. -/
theorem test_decode_unknown : decodeWord 0x00E1 = .unknown 0x00E1 ∧ decodeWord 0x0FFF = .unknown 0x0FFF ∧
    decodeWord 0x512F = .unknown 0x512F ∧ decodeWord 0x9121 = .unknown 0x9121 ∧ decodeWord 0x812D = .unknown 0x812D ∧
    decodeWord 0x812F = .unknown 0x812F ∧ decodeWord 0xE39F = .unknown 0xE39F ∧ decodeWord 0xF4FF = .unknown 0xF4FF ∧
    decodeWord 0xF066 = .unknown 0xF066 := by decide
/-- The first byte is the high one, and the rest is left (30_encoding.md R70, 20_memory.md R59). -/
theorem test_decode_bytes : decodeBytes [0xD1, 0x25, 0x77] = some (.instr (.drw 1 2 5), [0x77]) ∧ decodeBytes [0xD1] = none := by
  decide
theorem test_decode_table_word : decodeTableWord 16 0xA300 = some (.ldI 0x300) ∧ decodeTableWord 16 0x8128 = none := by decide
/-- Words written out, as the encoder must give them (30_encoding.md R72). -/
theorem test_encode : encode (.drw 1 2 5) = 0xD125 ∧ encode (.shr 1 7) = 0x8176 ∧ encode (.call 0x210) = 0x2210 ∧
    encode (.ldBVx 5) = 0xF533 ∧ encode (.sknp 3) = 0xE3A1 ∧ encode (.sneReg 1 2) = 0x9120 := by decide

/-! ### The fetch (2.1) -/

theorem test_fetch_top : seen { State.reset with pc := 0xFFE } 0x1200 (·.pc) = some 0x200 := by decide
theorem test_fetch_split : nextOf (stepReport { State.reset with pc := 0xFFF }) =
    some ({ State.reset with pc := 0xFFF, fault := some (.memoryOutOfBounds .fetch 0x1000 0xFFF) },
      .fault (.memoryOutOfBounds .fetch 0x1000 0xFFF)) := by decide
theorem test_fetch_above : nextOf (step { State.reset with pc := 0x10FE }) =
    some { State.reset with pc := 0x10FE, fault := some (.memoryOutOfBounds .fetch 0x10FE 0x10FE) } := by decide
theorem test_fetch_odd : seen { State.reset with pc := 0x201 } 0x607A (fun t => (t.reg 0, t.pc)) = some (0x7A, 0x203) := by decide
/-- 2.1: the font bytes F0 90 at 0x000 are an unknown word. -/
theorem test_fetch_font : nextOf (stepReport { State.reset with pc := 0 }) =
    some ({ State.reset with pc := 2 }, .event (.unknownOpcode 0xF 0 9 0 0)) := by decide
/-- 2.7 "empty ROM" and S13. -/
theorem test_reset_first_step : nextOf (stepReport State.reset) =
    some ({ State.reset with pc := 0x202 }, .event (.unknownOpcode 0 0 0 0 0x200)) := by decide

/-! ### Control flow (2.2) -/

theorem test_ret : seen { State.reset with pc := 0x300, stack := [0x206, 0x402] } 0x00EE (fun t => (t.pc, t.stack)) =
    some (0x402, [0x206]) := by decide
theorem test_ret_empty : (runWord { State.reset with pc := 0x212 } 0x00EE).map (fun p => (p.1.pc, p.1.fault, p.2)) =
    some (0x212, some (.stackUnderflow 0 0x212), .fault (.stackUnderflow 0 0x212)) := by decide
theorem test_jp : seen State.reset 0x1FFF (·.pc) = some 0xFFF := by decide
theorem test_call : seen { State.reset with pc := 0xFFE } 0x2300 (fun t => (t.pc, t.stack)) = some (0x300, [0x1000]) := by decide
theorem test_call_full : seen { State.reset with pc := 0x204, stack := List.replicate 24 0x202 } 0x2300
    (fun t => (t.pc, t.stack.length, t.fault)) = some (0x204, 24, some (.stackOverflow 24 0x204)) := by decide
theorem test_seImm : seen { State.reset with pc := 0x208 } 0x3000 (·.pc) = some 0x20C ∧
    seen { State.reset with pc := 0x208 } 0x3001 (·.pc) = some 0x20A := by decide
theorem test_sneImm : seen (regs [(3, 0x12)]) 0x4312 (·.pc) = some 0x202 ∧ seen (regs [(3, 0x13)]) 0x4312 (·.pc) = some 0x204 := by
  decide
theorem test_seReg : seen (regs [(1, 0x7F), (2, 0x7F)]) 0x5120 (·.pc) = some 0x204 ∧
    seen (regs [(1, 0x7F), (2, 0x7E)]) 0x5120 (·.pc) = some 0x202 := by decide
theorem test_sneReg : seen (regs [(1, 1), (2, 2)]) 0x9120 (·.pc) = some 0x204 ∧ seen (regs [(3, 9)]) 0x9330 (·.pc) = some 0x202 := by
  decide
theorem test_jpV0 : seen (regs [(0, 0xFF)]) 0xBFFF (·.pc) = some 0x10FE ∧ seen (regs [(0, 5)]) 0xB300 (·.pc) = some 0x305 := by decide
theorem test_unknown_no_skip : (runWord (regs [(1, 1), (2, 1)]) 0x5121).map (fun p => (p.1.pc, p.2)) =
    some (0x202, .event (.unknownOpcode 5 1 2 1 0x200)) := by decide

/-! ### ALU (2.3) -/

theorem test_ldImm : seen State.reset 0x6A42 (fun t => (t.reg 0xA, t.pc)) = some (0x42, 0x202) := by decide
theorem test_addImm : seen (regs [(0xA, 2)]) 0x7AFF (fun t => (t.reg 0xA, t.reg 0xF)) = some (1, 0) ∧
    seen (regs [(0xF, 0xFF)]) 0x7F01 (·.reg 0xF) = some 0 := by decide
theorem test_ldReg : seen (regs [(1, 1), (2, 0x99)]) 0x8120 (fun t => (t.reg 1, t.reg 2)) = some (0x99, 0x99) := by decide
theorem test_orReg : seen (regs [(1, 0xF0), (2, 0x0F), (0xF, 0x55)]) 0x8121 (fun t => (t.reg 1, t.reg 0xF)) = some (0xFF, 0x55) := by
  decide
theorem test_andReg : seen (regs [(1, 0xF3), (2, 0x3F)]) 0x8122 (·.reg 1) = some 0x33 := by decide
theorem test_xorReg : seen (regs [(1, 0xFF), (2, 0x0F)]) 0x8123 (·.reg 1) = some 0xF0 := by decide
/-- S3, S4. -/
theorem test_addReg : seen (regs [(1, 0xFF), (2, 1)]) 0x8124 (fun t => (t.reg 1, t.reg 0xF)) = some (0, 1) ∧
    seen (regs [(1, 1), (2, 1)]) 0x8124 (fun t => (t.reg 1, t.reg 0xF)) = some (2, 0) := by decide
theorem test_addReg_vf : seen (regs [(0xF, 0xFF), (2, 1)]) 0x8F24 (·.reg 0xF) = some 1 ∧
    seen (regs [(1, 0x10), (0xF, 0xF0)]) 0x81F4 (fun t => (t.reg 1, t.reg 0xF)) = some (0, 1) := by decide
/-- S5 and "SUB equal". -/
theorem test_sub : seen (regs [(1, 1), (2, 2), (0xF, 1)]) 0x8125 (fun t => (t.reg 1, t.reg 0xF)) = some (0xFF, 0) ∧
    seen (regs [(1, 7), (2, 7)]) 0x8125 (fun t => (t.reg 1, t.reg 0xF)) = some (0, 1) := by decide
theorem test_sub_vf : seen (regs [(0xF, 5), (2, 6)]) 0x8F25 (·.reg 0xF) = some 0 := by decide
theorem test_shr : seen (regs [(1, 0x81)]) 0x8106 (fun t => (t.reg 1, t.reg 0xF)) = some (0x40, 1) ∧
    seen (regs [(1, 0x80), (7, 0x33)]) 0x8176 (fun t => (t.reg 1, t.reg 7, t.reg 0xF)) = some (0x40, 0x33, 0) := by decide
theorem test_shr_vf : seen (regs [(0xF, 2)]) 0x8F06 (·.reg 0xF) = some 0 := by decide
theorem test_subn : seen (regs [(1, 2), (2, 9)]) 0x8127 (fun t => (t.reg 1, t.reg 0xF)) = some (7, 1) ∧
    seen (regs [(1, 9), (2, 2)]) 0x8127 (fun t => (t.reg 1, t.reg 0xF)) = some (0xF9, 0) := by decide
theorem test_subn_vf : seen (regs [(0xF, 1)]) 0x8F27 (·.reg 0xF) = some 0 := by decide
theorem test_shl : seen (regs [(1, 0x81)]) 0x810E (fun t => (t.reg 1, t.reg 0xF)) = some (2, 1) ∧
    seen (regs [(1, 0x7F), (0xA, 0xFF)]) 0x81AE (fun t => (t.reg 1, t.reg 0xF)) = some (0xFE, 0) := by decide
theorem test_shl_vf : seen (regs [(0xF, 0x80)]) 0x8F0E (·.reg 0xF) = some 1 := by decide
/-- "RND, kk = 0": zero whatever byte is drawn; the draw itself is a free value. -/
theorem test_rnd : seen (regs [(1, 0x55)]) 0xC100 (fun t => (t.pc, t.draws)) = some (0x202, 1) := by decide

/-! ### Index and memory (2.4) -/

theorem test_ldI : seen { State.reset with i := 0x500 } 0xAFFF (·.i) = some 0xFFF := by decide
theorem test_addIVx : seen { regs [(3, 2)] with i := 0xFFFF } 0xF31E (fun t => (t.i, t.reg 0xF)) = some (1, 0) ∧
    seen { regs [(3, 1)] with i := 0xFFF } 0xF31E (·.i) = some 0x1000 := by decide
theorem test_ldFVx : seen (regs [(4, 0x0F)]) 0xF429 (·.i) = some 0x4B ∧ seen (regs [(4, 0xFF)]) 0xF429 (·.i) = some 0x4FB := by decide
/-- S8. -/
theorem test_ldBVx : seen { regs [(5, 234)] with i := 0x300 } 0xF533 (fun t => (bytesOf t 0x2FF 5, t.i)) =
    some ([0, 2, 3, 4, 0], 0x300) := by decide
theorem test_ldBVx_past : seen { regs [(5, 123)] with i := 0xFFE } 0xF533 (fun t => (bytesOf t 0xFFE 2, t.pc, t.fault)) =
    some ([0, 0], 0x200, some (.memoryOutOfBounds .write 0x1000 0x200)) := by decide
theorem test_ldMemVx : seen { regs [(0, 1), (1, 2), (2, 3), (3, 4)] with i := 0x300 } 0xF255 (fun t => (bytesOf t 0x300 4, t.i)) =
    some ([1, 2, 3, 0], 0x300) := by decide
theorem test_ldMemVx_past : seen { regs [(0, 1), (1, 2), (2, 3)] with i := 0xFFE } 0xF255 (fun t => (bytesOf t 0xFFE 2, t.fault)) =
    some ([0, 0], some (.memoryOutOfBounds .write 0x1000 0x200)) := by decide
theorem test_ldVxMem : seen (bytesAt { State.reset with i := 0x300 } 0x300 [7, 8, 9, 0xA]) 0xF265
    (fun t => ([t.reg 0, t.reg 1, t.reg 2, t.reg 3], t.i)) = some ([7, 8, 9, 0], 0x300) := by decide
theorem test_ldVxMem_past : seen { regs [(0, 0x11)] with i := 0xFFE } 0xF265 (fun t => (t.reg 0, t.fault)) =
    some (0x11, some (.memoryOutOfBounds .read 0x1000 0x200)) := by decide

/-! ### Display (2.5) -/

/-- S2. -/
theorem test_cls : seen (lit State.reset [(0, 0), (10, 5), (63, 31)]) 0x00E0
    (fun t => (t.fb.pixel 0 0, t.fb.pixel 10 5, t.fb.pixel 63 31, t.pc)) = some (false, false, false, 0x202) := by decide
/-- S7: a row that wraps in x. -/
theorem test_drw_wrap : seen (bytesAt { regs [(1, 60)] with i := 0x300 } 0x300 [0xFF]) 0xD121
    (fun t => ([59, 60, 63, 0, 3, 4].map fun c => t.fb.pixel c 0)) = some [false, true, true, true, true, false] := by decide
/-- "DRW, X = F": the column comes from the old VF, and the draw clears a set pixel. -/
theorem test_drw_vf : seen (lit (bytesAt { regs [(0xF, 2)] with i := 0x300 } 0x300 [0x80]) [(2, 0)]) 0xDF21
    (fun t => (t.fb.pixel 2 0, t.reg 0xF)) = some (false, 1) := by decide
/-- 43_display.md R171 against R172's last sentence (log 29): the sprite has a set bit, the first draw clears the pixel it
falls on, and the second draw sets it again without a collision. -/
theorem test_drw_twice : seen (lit (bytesAt { State.reset with i := 0x300 } 0x300 [0x80]) [(0, 0)]) 0xD121
    (fun t => seen t 0xD121 (·.reg 0xF)) = some (some 0) := by decide
theorem test_drw_past : seen (lit { regs [(0xF, 7)] with i := 0xFFF } [(5, 5)]) 0xD122
    (fun t => (t.fb.pixel 5 5, t.reg 0xF, t.pc, t.fault)) =
    some (true, 7, 0x200, some (.memoryOutOfBounds .read 0x1000 0x200)) := by decide

/-! ### Keys and timers (2.6) -/

theorem test_skp : seen (pressed (regs [(3, 5)]) [5]) 0xE39E (·.pc) = some 0x204 ∧
    seen (pressed (regs [(3, 5)]) [4]) 0xE39E (·.pc) = some 0x202 := by decide
theorem test_skp_range : seen (pressed (regs [(3, 0x10)]) [0]) 0xE39E (fun t => (t.pc, t.fault)) =
    some (0x200, some (.keyIndexOutOfRange 0x10 0x200)) := by decide
theorem test_sknp : seen (pressed (regs [(3, 5)]) [5]) 0xE3A1 (·.pc) = some 0x202 ∧
    seen (regs [(3, 5)]) 0xE3A1 (·.pc) = some 0x204 := by decide
theorem test_sknp_range : seen (regs [(3, 0xFF)]) 0xE3A1 (fun t => (t.pc, t.fault)) =
    some (0x200, some (.keyIndexOutOfRange 0xFF 0x200)) := by decide
theorem test_ldVxDt : seen { State.reset with dt := 0x3C } 0xF407 (fun t => (t.reg 4, t.dt)) = some (0x3C, 0x3C) := by decide
/-- S9. -/
theorem test_ldVxK : seen (pressed { State.reset with pc := 0x220 } [9, 3, 0xE]) 0xF40A (fun t => (t.reg 4, t.pc)) =
    some (3, 0x222) := by decide
theorem test_ldVxK_none : (runWord { State.reset with pc := 0x220 } 0xF40A).map (fun p => (p.1.reg 4, p.1.pc, p.2)) =
    some (0, 0x220, .ok) := by decide
theorem test_ldDtVx : seen { regs [(4, 0x3C)] with dt := 9 } 0xF415 (fun t => (t.dt, t.st)) = some (0x3C, 0) := by decide
theorem test_ldStVx : seen (regs [(4, 1)]) 0xF418 (fun t => (t.st, t.dt, t.isSoundActive)) = some (1, 0, true) := by decide

/-! ### The fault table (60_exceptions.md R201) -/

theorem test_codes : (Fault.stackOverflow 24 0).code = 1 ∧ (Fault.stackUnderflow 0 0).code = 2 ∧
    (Fault.memoryOutOfBounds .fetch 0x1000 0).code = 3 ∧ (Fault.keyIndexOutOfRange 0x10 0).code = 4 ∧
    (Event.unknownOpcode 0 0 0 0 0).code = 16 := by decide
/-- 2.1 "step after a fault". -/
theorem test_faulted : nextOf (stepReport { State.reset with fault := some (.stackUnderflow 0 0x200) }) =
    some ({ State.reset with fault := some (.stackUnderflow 0 0x200) }, .faulted (.stackUnderflow 0 0x200)) := by decide

/-! ### Host operations (2.7) -/

theorem test_tick_delay : ({ State.reset with dt := 1, st := 5 } : State).tickDelay = { State.reset with dt := 0, st := 5 } ∧
    State.reset.tickDelay = State.reset := by decide
theorem test_tick_sound : ({ State.reset with dt := 7, st := 2 } : State).tickSound = { State.reset with dt := 7, st := 1 } := by
  decide
theorem test_press_range : perform (.press 16) State.reset = .refused (.keyOutOfRange 16) := rfl
theorem test_get_pixel : nextOf (perform (.getPixel 63 31) (lit State.reset [(63, 31)])) =
    some (lit State.reset [(63, 31)], .bit true) := by decide
theorem test_get_pixel_outside : perform (.getPixel 64 0) State.reset = .refused (.pixelOutOfRange 64 0) := rfl
/-- P1's first word, loaded by reset(rom) on a faulted core. -/
theorem test_reset_rom : (nextOf (perform (.reset [0x60, 0x05]) { State.reset with fault := some (.stackUnderflow 0 0x212) })).map
    (fun p => (p.1.pc, p.1.fault, bytesOf p.1 0x1FF 4, bytesOf p.1 0 3)) =
    some (0x200, none, [0, 0x60, 0x05, 0], [0xF0, 0x90, 0x90]) := by decide

/-! ### Witnesses: states and operands that meet a statement's hypotheses, one per clause, at the edges -/

theorem witness_DecodeOfEncode : (Instr.jpV0 0xFFF).wellFormed = true ∧ (Instr.drw 0 0 15).wellFormed = true := by decide

theorem witness_EncodeOfDecode : decodeWord 0xFF65 = .instr (.ldVxMem 15) := by decide

/-- A two-byte instruction at the top of memory. -/
theorem witness_StepRunsDecoded : ∃ (s t : State) (hi lo : Byte), s.fault = none ∧ memRead s.mem s.pc.toNat = .ok hi ∧
    memRead s.mem (s.pc.toNat + 1) = .ok lo ∧ decodeWord (BitVec.ofNat 16 (hi.toNat * 256 + lo.toNat)) = .instr (.jp 0x200) ∧
    exec (.jp 0x200) { s with pc := s.pc + 2 } = .next t :=
  ⟨bytesAt { State.reset with pc := 0xFFE } 0xFFE [0x12, 0x00], _, 0x12, 0x00, rfl, by decide, by decide, by decide, rfl⟩

theorem witness_PlacedWordIsRun : decodeTableWord 16 0x1200 = some (.jp 0x200) ∧
    (({ State.reset with pc := 0xFFE } : State).pc.toNat + 1 < 4096) := by decide

theorem witness_UnknownWordIsNoOp : State.reset.fault = none ∧ memRead State.reset.mem State.reset.pc.toNat = .ok 0 ∧
    memRead State.reset.mem (State.reset.pc.toNat + 1) = .ok 0 ∧
    decodeWord (BitVec.ofNat 16 ((0 : Byte).toNat * 256 + (0 : Byte).toNat)) = .unknown 0 := by decide

theorem witness_FetchChecksBothBytes : fetch16 State.reset.mem 0xFFE = .ok 0 ∧
    fetch16 ({ State.reset with pc := 0xFFF } : State).mem 0xFFF = .error 0x1000 ∧ fetch16 State.reset.mem 0x1000 = .error 0x1000 := by
  decide

theorem witness_LatchedFaultHolds : ∃ (s t : State) (f : Fault), s.fault = some f ∧
    perform .tickDelay s = .next (t, .done) ∧ s.dt = 3 ∧ t.dt = 2 :=
  ⟨{ State.reset with dt := 3, fault := some (.stackUnderflow 0 0x200) }, _, _, rfl, rfl, rfl, by decide⟩

theorem witness_FaultsArePrecise : ∃ (s t : State) (r : Report) (f : Fault), s.fault = none ∧ stepReport s = .next (t, r) ∧
    t.fault = some f := by
  refine ⟨{ State.reset with pc := 0xFFF }, _, _, _, rfl, rfl, rfl⟩

/-- A state at every bound of the invariant at once: the stack full of the highest return address, PC at its highest value, a
latched fault, a listed byte at the top of memory. -/
def edge : State :=
  { bytesAt State.reset 0xFFF [1] with
    pc := 0x10FE
    stack := List.replicate 24 0x1000
    fault := some (.memoryOutOfBounds .fetch 0x10FE 0x10FE) }

theorem edge_fault : edge.fault = some (.memoryOutOfBounds .fetch 0x10FE 0x10FE) := rfl

theorem edge_stack : edge.stack = List.replicate 24 0x1000 := rfl

theorem edge_inv : edge.Inv where
  mem_wf := by decide
  depth_min := by decide
  font_len := by decide
  stack_bound := by decide
  stack_addr := fun a h => by
    rw [edge_stack, List.mem_replicate] at h
    rw [h.2]
    decide
  pc_bound := by decide
  fault_pc := fun f h => by
    rw [edge_fault, Option.some.injEq] at h
    rw [← h]
    rfl
  fault_sound := fun f h => by
    rw [edge_fault, Option.some.injEq] at h
    rw [← h]
    rfl

theorem witness_StepKeepsInvariant : ∃ s t : State, s.Inv ∧ step s = .next t := ⟨edge, edge, edge_inv, rfl⟩

theorem witness_HostOpsKeepInvariant : ∃ (s t : State) (a : Answer), s.Inv ∧ perform .tickDelay s = .next (t, a) :=
  ⟨edge, _, _, edge_inv, rfl⟩

theorem witness_ResetValues : (15 : Nat) < 16 ∧ 4 < 5 ∧ 0x50 ≤ 0xFFF ∧ 0xFFF < 0x1000 ∧ 0x1000 ≤ 0x1000 := by decide

/-- The longest program that fits, S15. -/
theorem witness_ResetLoadsProgram : (List.replicate 3584 (1 : Byte)).length ≤ 3584 ∧ State.reset.params.fontData.length = 80 :=
  ⟨by rw [List.length_replicate], by decide⟩

/-- The shortest program that does not fit, S15. -/
theorem witness_LongProgramRefused : 3584 < (List.replicate 3585 (1 : Byte)).length := by
  rw [List.length_replicate]
  decide

theorem witness_KeysChangeOneAtATime : (16 : Nat) ≤ 16 ∧ (pressed State.reset [0xA]).keys[(0xA : Fin 16)] = true ∧
    State.reset.keys[(0xF : Fin 16)] = false := by decide

theorem witness_QueriesChangeNothing : (64 ≤ 64 ∨ 32 ≤ 0) ∧ (64 ≤ 63 ∨ 32 ≤ 32) := by decide

theorem witness_JumpSetsPc : (0xFFF : Word).toNat < 0x1000 := by decide

/-- Room for one more entry, and none. -/
theorem witness_CallPushesReturnAddress : (0xFFF : Word).toNat < 0x1000 ∧
    ({ State.reset with stack := List.replicate 23 0x202 } : State).stack.length < State.reset.params.stackDepth ∧
    ({ State.reset with stack := List.replicate 24 0x202 } : State).stack.length = State.reset.params.stackDepth := by decide

theorem witness_RetPopsReturnAddress : ({ State.reset with stack := [0x206] } : State).stack = [] ++ [0x206] ∧
    State.reset.stack = [] := by decide

theorem witness_IndexedJumpAddsV0 : (0xFFF : Word).toNat < 0x1000 ∧ ((regs [(0, 0xFF)]).reg 0).toNat = 0xFF := by decide

theorem witness_PcInstructionsMovePcOnly : ∃ t : State, exec (.seReg 0 0) State.reset = .next t ∧
    Instr.seReg 0 0 ∈ [.jp 0xFFF, .jpV0 0xFFF, .seImm 0 0xFF, .sneImm 0 0xFF, .seReg 0 0, .sneReg 0 0] := ⟨_, rfl, by decide⟩

theorem witness_SkipsOnKey : ((regs [(3, 0xF)]).reg 3).toNat = (15 : Fin 16).val ∧ 16 ≤ ((regs [(3, 0x10)]).reg 3).toNat := by decide

theorem witness_CallReturnRoundTrip : ∃ s t u : State, s.stack.length < s.params.stackDepth ∧
    exec (.call 0x210) s = .next t ∧ u.stack = t.stack ∧ u.pc ≠ t.pc :=
  ⟨State.reset, { State.reset with pc := 0x210, stack := [0x200] }, { State.reset with pc := 0x216, stack := [0x200] }, by decide,
    rfl, rfl, by decide⟩

theorem witness_LoadsCopyIntoVx : (0xE : Reg) ≠ Reg.vf := by decide

theorem witness_AddImmediateWraps : (0 : Reg) ≠ Reg.vf := by decide

/-- A load of VF, and a wait that takes key F. -/
theorem witness_LoadsWriteVxOnly :
    (∃ t : State, exec (.ldImm 0xF 0xFF) State.reset = .next t ∧
      Instr.ldImm 0xF 0xFF ∈ [.ldImm 0xF 0xFF, .addImm 0xF 0xFF, .ldReg 0xF 0, .ldVxDt 0xF]) ∧
    (∃ t : State, exec (.ldVxK 0xF) (pressed State.reset [0xF]) = .next t ∧
      ∃ k : Fin 16, (pressed State.reset [0xF]).keys[k] = true) :=
  ⟨⟨_, rfl, by decide⟩, ⟨_, rfl, 15, by decide⟩⟩

theorem witness_RandomByteIsMasked : (0x00 : Byte) = 0 ∧ (0xFF : Byte) = 0xFF := by decide

theorem witness_OneFieldFrames : (∃ t : State, exec .cls State.reset = .next t) ∧
    (∃ t : State, exec (.addIVx 0xF) State.reset = .next t ∧ Instr.addIVx 0xF ∈ [.ldI 0xFFF, .addIVx 0xF, .ldFVx 0xF]) ∧
    (∃ t : State, exec (.ldDtVx 0xF) State.reset = .next t) ∧ (∃ t : State, exec (.ldStVx 0xF) State.reset = .next t) :=
  ⟨⟨_, rfl⟩, ⟨_, rfl, by decide⟩, ⟨_, rfl⟩, ⟨_, rfl⟩⟩

theorem witness_LoadIndexSetsI : (0xFFF : Word).toNat < 0x1000 := by decide

theorem witness_BcdStoresDigits : ({ State.reset with i := 0xFFD } : State).i.toNat + 2 < 4096 ∧
    4096 ≤ ({ State.reset with i := 0xFFE } : State).i.toNat + 2 := by decide

theorem witness_RegisterDumpStoresRun : ({ State.reset with i := 0xFF0 } : State).i.toNat + (15 : Reg).val < 4096 ∧
    4096 ≤ ({ State.reset with i := 0xFF1 } : State).i.toNat + (15 : Reg).val := by decide

theorem witness_RegisterLoadReadsRun : ({ State.reset with i := 0xFFF } : State).i.toNat + (0 : Reg).val < 4096 ∧
    4096 ≤ ({ State.reset with i := 0x1000 } : State).i.toNat + (0 : Reg).val := by decide

/-- The registers hold other values at the load than at the dump. -/
theorem witness_DumpThenLoadRestores : ∃ s t u : State, s.i.toNat + (1 : Reg).val < 4096 ∧ exec (.ldMemVx 1) s = .next t ∧
    u.mem = t.mem ∧ u.i = s.i ∧ u.reg 0 ≠ s.reg 0 := by
  refine ⟨{ regs [(0, 1), (1, 2)] with i := 0xFFE }, _, bytesAt { State.reset with i := 0xFFE } 0xFFE [1, 2], by decide, rfl, ?_, ?_, ?_⟩ <;>
    decide

theorem witness_StoredBytesAreFetched : ∃ s t : State, s.i.toNat + (1 : Reg).val < 4096 ∧ exec (.ldMemVx 1) s = .next t ∧
    (1 : Reg).val = (0 : Reg).val + 1 ∧ (1 : Reg).val ≤ (1 : Reg).val :=
  ⟨{ regs [(0, 0x62), (1, 0x99)] with i := 0xFFE }, _, by decide, rfl, by decide, by decide⟩

/-- No rows with I far outside memory, and fifteen rows ending at 0xFFF. -/
theorem witness_DrawXorsSprite : (0 : Nat) < 16 ∧ (15 : Nat) < 16 ∧
    ((0 : Nat) = 0 ∨ ({ State.reset with i := 0xFFFF } : State).i.toNat + 0 ≤ 4096) ∧
    ((15 : Nat) = 0 ∨ ({ State.reset with i := 0xFF1 } : State).i.toNat + 15 ≤ 4096) := by decide

theorem witness_DrawPastMemoryFaults : (15 : Nat) ≠ 0 ∧ 4096 < ({ State.reset with i := 0xFF2 } : State).i.toNat + 15 ∧
    (1 : Nat) ≠ 0 ∧ 4096 < ({ State.reset with i := 0x1000 } : State).i.toNat + 1 := by decide

theorem witness_DrawTwiceRestores : ∃ s t : State, (1 : Reg) ≠ Reg.vf ∧ (2 : Reg) ≠ Reg.vf ∧ 1 < 16 ∧
    ((1 : Nat) = 0 ∨ s.i.toNat + 1 ≤ 4096) ∧ exec (.drw 1 2 1) s = .next t ∧
    (∀ (c : Fin 64) (r : Fin 32), s.fb[c][r] = false) :=
  ⟨bytesAt { State.reset with i := 0xFFF } 0xFFF [0x3C], _, by decide, by decide, by decide, by decide, rfl,
    fun c r => by simp [bytesAt, State.reset]⟩

theorem witness_WaitKeyTakesLowest : (pressed State.reset [0xF]).keys[(15 : Fin 16)] = true ∧
    (∀ j : Fin 16, j < 15 → (pressed State.reset [0xF]).keys[j] = false) ∧ (∀ k : Fin 16, State.reset.keys[k] = false) := by decide

theorem witness_WaitKeyStalls : ∃ s : State, s.fault = none ∧ fetch16 s.mem s.pc.toNat = .ok 0xF40A ∧
    decodeWord 0xF40A = .instr (.ldVxK 4) ∧ ∀ k : Fin 16, s.keys[k] = false :=
  ⟨bytesAt { State.reset with pc := 0x220, dt := 1 } 0x220 [0xF4, 0x0A], rfl, by decide, by decide, by decide⟩

/-- Each piece of state with one instruction that changes it. -/
theorem witness_StateHasOwners :
    (∃ s t : State, exec .cls s = .next t ∧ t.fb ≠ s.fb) ∧ (∃ s t : State, exec (.call 0x300) s = .next t ∧ t.stack ≠ s.stack) ∧
    (∃ s t : State, exec (.ldI 1) s = .next t ∧ t.i ≠ s.i) ∧ (∃ s t : State, exec (.ldDtVx 0) s = .next t ∧ t.dt ≠ s.dt) ∧
    (∃ s t : State, exec (.ldStVx 0) s = .next t ∧ t.st ≠ s.st) ∧
    (∃ s t : State, exec (.rnd 0 0) s = .next t ∧ t.draws ≠ s.draws) :=
  ⟨⟨lit State.reset [(0, 0)], _, rfl, by decide⟩, ⟨State.reset, _, rfl, by decide⟩, ⟨State.reset, _, rfl, by decide⟩,
    ⟨regs [(0, 1)], _, rfl, by decide⟩, ⟨regs [(0, 1)], _, rfl, by decide⟩, ⟨State.reset, _, rfl, by decide⟩⟩

theorem witness_StoresStayInTheirRun : ∃ s t : State, exec (.ldBVx 5) s = .next t ∧ memRead t.mem 0xFFF ≠ memRead s.mem 0xFFF :=
  ⟨{ regs [(5, 123)] with i := 0xFFD }, _, rfl, by decide⟩

theorem witness_FlagHasOwners : ∃ s t : State, exec (.addReg 1 2) s = .next t ∧ t.reg Reg.vf ≠ s.reg Reg.vf :=
  ⟨regs [(1, 0xFF), (2, 1)], _, rfl, by decide⟩

theorem witness_SelfJumpIdles : ∃ (s : State) (op : Word), s.fault = none ∧ fetch16 s.mem s.pc.toNat = .ok op ∧
    op.toNat = 0x1000 + s.pc.toNat :=
  ⟨bytesAt { State.reset with pc := 0xFFE } 0xFFE [0x1F, 0xFE], 0x1FFE, rfl, by decide, by decide⟩

theorem witness_ZeroRunIsPassedOver : ∃ s : State, s.fault = none ∧ s.pc.toNat + 2 * 1 ≤ 4096 ∧
    ∀ a, s.pc.toNat ≤ a → a < s.pc.toNat + 2 * 1 → memRead s.mem a = .ok 0 := by
  refine ⟨{ State.reset with pc := 0xFFE }, rfl, by decide, fun a h1 h2 => ?_⟩
  have : a = 0xFFE ∨ a = 0xFFF := by
    change 0xFFE ≤ a at h1
    change a < 0x1000 at h2
    omega
  rcases this with rfl | rfl <;> decide

end Sys2Proof.Tests
end

section
/-! PROOFS. The control transfers (40_control_flow.md R101, R103 to R106): the word of each instruction decodes to it, and each meaning is one equation for the whole next state. -/

namespace Sys2Proof

/-! ### Decoding the word of an instruction (30_encoding.md R72, R76) -/

/-- The decoder reads back every encodable instruction: within each format its digit and its fields do. -/
theorem decodeWord_encode {i : Instr} (h : i.wellFormed = true) : decodeWord (encode i) = .instr i := by
  cases i with
  | cls | ret => rfl
  | jp nnn | call nnn | ldI nnn | jpV0 nnn =>
    have hfits : fitsAddress nnn := of_decide_eq_true h
    simp [encode, decodeWord, hfits]
  | drw x y n =>
    have hfits : fitsRows n := of_decide_eq_true h
    simp [encode, decodeWord, hfits]
  | seImm | sneImm | ldImm | addImm | rnd => simp [encode, decodeWord]
  | seReg | sneReg => simp [encode, decodeWord]
  | ldReg | orReg | andReg | xorReg | addReg | sub | shr | subn | shl => simp [encode, decodeWord, decode8]
  | skp | sknp => simp [encode, decodeWord, decodeE]
  | ldVxDt | ldVxK | ldDtVx | ldStVx | addIVx | ldFVx | ldBVx | ldMemVx | ldVxMem => simp [encode, decodeWord, decodeF]

end Sys2Proof

namespace Sys2Proof.Machine

/-! ### One equation per instruction -/

theorem exec_jp (nnn : Word) (s : State) : exec (.jp nnn) s = .next { s with pc := nnn } := rfl

/-- The skip on a Boolean test of two bytes, as the proposition it decides. -/
theorem State.skipIf_beq (s : State) (a b : Byte) :
    s.skipIf (a == b) = { s with pc := if a = b then s.pc + 2 else s.pc } := by
  simp only [State.skipIf_eq, beq_iff_eq]

theorem State.skipIf_bne (s : State) (a b : Byte) :
    s.skipIf (a != b) = { s with pc := if a = b then s.pc else s.pc + 2 } := by
  simp only [State.skipIf_eq, bne_iff_ne, ne_eq, ite_not]

theorem exec_seImm (x : Reg) (kk : Byte) (s : State) :
    exec (.seImm x kk) s = .next { s with pc := if s.reg x = kk then s.pc + 2 else s.pc } := by
  rw [exec, execSeImm, State.skipIf_beq]

theorem exec_sneImm (x : Reg) (kk : Byte) (s : State) :
    exec (.sneImm x kk) s = .next { s with pc := if s.reg x = kk then s.pc else s.pc + 2 } := by
  rw [exec, execSneImm, State.skipIf_bne]

theorem exec_seReg (x y : Reg) (s : State) :
    exec (.seReg x y) s = .next { s with pc := if s.reg x = s.reg y then s.pc + 2 else s.pc } := by
  rw [exec, execSeReg, State.skipIf_beq]

theorem exec_sneReg (x y : Reg) (s : State) :
    exec (.sneReg x y) s = .next { s with pc := if s.reg x = s.reg y then s.pc else s.pc + 2 } := by
  rw [exec, execSneReg, State.skipIf_bne]

/-! ### Statements -/

/-- Settles O22: the word is the encoding of JP, and the target is the operand. -/
theorem jumpSetsPc : Obligations.JumpSetsPc := by
  intro nnn s
  have hword (h : nnn.toNat < 0x1000) : decodeWord (encode (.jp nnn)) = .instr (.jp nnn) :=
    decodeWord_encode (decide_eq_true h)
  exact ⟨hword, _, exec_jp nnn s, rfl, rfl⟩

/-- Settles O26: each word is the encoding of its instruction, and each meaning is a skip on its comparison. -/
theorem skipsOnComparison : Obligations.SkipsOnComparison := by
  intro x y kk s
  refine ⟨?seImmWord, ?sneImmWord, ?seRegWord, ?sneRegWord, ?seImm, ?sneImm, ?seReg, ?sneReg⟩
  case seImmWord => exact decodeWord_encode (i := .seImm x kk) rfl
  case sneImmWord => exact decodeWord_encode (i := .sneImm x kk) rfl
  case seRegWord => exact decodeWord_encode (i := .seReg x y) rfl
  case sneRegWord => exact decodeWord_encode (i := .sneReg x y) rfl
  case seImm => exact ⟨_, exec_seImm x kk s, rfl, rfl⟩
  case sneImm => exact ⟨_, exec_sneImm x kk s, rfl, rfl⟩
  case seReg => exact ⟨_, exec_seReg x y s, rfl, rfl⟩
  case sneReg => exact ⟨_, exec_sneReg x y s, rfl, rfl⟩

end Sys2Proof.Machine
end

section
/-! PROOFS. The register loads and the immediate addition (41_alu.md R121 to R123): each is one write of VX. -/

namespace Sys2Proof.Machine

/-! ### One equation per instruction -/

theorem exec_ldImm (x : Reg) (kk : Byte) (s : State) : exec (.ldImm x kk) s = .next (s.setReg x kk) := rfl

theorem exec_addImm (x : Reg) (kk : Byte) (s : State) :
    exec (.addImm x kk) s = .next (s.setReg x (sumByte (s.reg x) kk)) := rfl

theorem exec_ldReg (x y : Reg) (s : State) : exec (.ldReg x y) s = .next (s.setReg x (s.reg y)) := rfl

/-- VF is one of the general registers: a write of VX changes it only when X is F (10_state.md R21). -/
theorem State.reg_vf_setReg (s : State) {x : Reg} (b : Byte) (h : x ≠ Reg.vf) :
    (s.setReg x b).reg Reg.vf = s.reg Reg.vf :=
  s.reg_setReg_other b h.symm

/-! ### Statements -/

/-- Settles O30: each word is the encoding of its instruction, and each meaning is one write of VX. -/
theorem loadsCopyIntoVx : Obligations.LoadsCopyIntoVx := by
  intro x y kk s
  refine ⟨?ldImmWord, ?ldRegWord, ?ldImm, ?ldReg⟩
  case ldImmWord => exact decodeWord_encode (i := .ldImm x kk) rfl
  case ldRegWord => exact decodeWord_encode (i := .ldReg x y) rfl
  case ldImm => exact ⟨_, exec_ldImm x kk s, s.reg_setReg_same x kk, s.reg_vf_setReg kk, s.setReg_fault x kk⟩
  case ldReg =>
    exact ⟨_, exec_ldReg x y s, s.reg_setReg_same x (s.reg y), s.reg_vf_setReg (s.reg y), s.setReg_fault x (s.reg y)⟩

/-- Settles O31: the word is the encoding of ADD, and the meaning is one write of VX, the sum modulo 256. -/
theorem addImmediateWraps : Obligations.AddImmediateWraps := by
  intro x kk s
  have hword : decodeWord (encode (.addImm x kk)) = .instr (.addImm x kk) := decodeWord_encode rfl
  have hsum : ((s.setReg x (sumByte (s.reg x) kk)).reg x).toNat = ((s.reg x).toNat + kk.toNat) % 256 := by
    rw [State.reg_setReg_same, sumByte_toNat]
  exact ⟨hword, _, exec_addImm x kk s, hsum, s.reg_vf_setReg _, s.setReg_fault x _⟩

end Sys2Proof.Machine
end

section
/-! PROOFS. The load of the index register (42_index_memory.md R150): one write of I, the address unreduced. -/

namespace Sys2Proof.Machine

theorem exec_ldI (nnn : Word) (s : State) : exec (.ldI nnn) s = .next { s with i := nnn } := rfl

/-- Settles O38: the word is the encoding of LD I, and the meaning is one write of I. -/
theorem loadIndexSetsI : Obligations.LoadIndexSetsI := by
  intro nnn s
  have hword (h : nnn.toNat < 0x1000) : decodeWord (encode (.ldI nnn)) = .instr (.ldI nnn) :=
    decodeWord_encode (decide_eq_true h)
  exact ⟨hword, _, exec_ldI nnn s, rfl, rfl⟩

end Sys2Proof.Machine
end

section
/-! PROOFS. The clear of the display (43_display.md R170): one write of the framebuffer. -/

namespace Sys2Proof.Machine

theorem exec_cls (s : State) : exec .cls s = .next { s with fb := Framebuffer.clear } := rfl

/-- Settles O45: the word is the encoding of CLS, and the meaning is one write of the framebuffer, whose every pixel is then
false; memory is the same map. -/
theorem clsClearsEveryPixel : Obligations.ClsClearsEveryPixel := by
  have hword : decodeWord (encode .cls) = .instr .cls := decodeWord_encode rfl
  have hpixels (x : Fin 64) (y : Fin 32) : Framebuffer.clear[x][y] = false := Framebuffer.pixel_clear x y
  exact ⟨hword, fun s => ⟨_, exec_cls s, hpixels, rfl, rfl, fun _ => rfl, rfl⟩⟩

end Sys2Proof.Machine
end

section
/-! PROOFS. The key wait and the timer loads (44_keys_timers.md R183 to R186): the wait writes VX or takes PC back, and each timer load is one write. -/

namespace Sys2Proof.Machine

/-! ### One equation per instruction -/

theorem exec_ldVxDt (x : Reg) (s : State) : exec (.ldVxDt x) s = .next (s.setReg x s.dt) := rfl

theorem exec_ldDtVx (x : Reg) (s : State) : exec (.ldDtVx x) s = .next { s with dt := s.reg x } := rfl

theorem exec_ldStVx (x : Reg) (s : State) : exec (.ldStVx x) s = .next { s with st := s.reg x } := rfl

/-! ### Words of the form FX__ (30_encoding.md R76) -/

/-- The decoder reads the instruction back from a word written as its fixed digits plus X in its place. -/
theorem decodeWord_fixedDigits_add_x {i : Instr} {x : Reg} {low : Nat} (hrow : encode i = encodeXSUB 0xF x low)
    (hwf : i.wellFormed = true) : decodeWord (BitVec.ofNat 16 (0xF000 + low + x.val * 256)) = .instr i := by
  have hword : BitVec.ofNat 16 (0xF000 + low + x.val * 256) = encode i := by
    rw [hrow, encodeXSUB, Nat.add_right_comm]
  rw [hword, decodeWord_encode hwf]

/-! ### Keys as bytes, and the sound query -/

/-- A key number fits a register: storing it loses nothing. -/
theorem toNat_keyByte (k : Fin 16) : (BitVec.ofNat 8 k.val).toNat = k.val := by
  rw [BitVec.toNat_ofNat, Nat.mod_eq_of_lt (by omega)]

theorem State.isSoundActive_iff (s : State) : s.isSoundActive = true ↔ 0 < s.st.toNat := decide_eq_true_iff

/-! ### Statements -/

/-- Settles O49: the word is the encoding of LD VX, K; with a lowest pressed key the meaning is one write of VX, and with none
it is PC taken back over the same memory. -/
theorem waitKeyTakesLowest : Obligations.WaitKeyTakesLowest := by
  intro x s
  refine ⟨?word, ?pressed, ?nonePressed⟩
  case word => exact decodeWord_fixedDigits_add_x (i := .ldVxK x) (low := 0x0A) rfl rfl
  case pressed =>
    intro k hk hlow
    have hkey : ((s.setReg x (BitVec.ofNat 8 k.val)).reg x).toNat = k.val := by
      rw [State.reg_setReg_same, toNat_keyByte]
    exact ⟨_, exec_ldVxK_key x hk hlow, hkey, s.setReg_pc x _, s.setReg_fault x _⟩
  case nonePressed =>
    intro hnone
    exact ⟨s.retract, exec_ldVxK_none x hnone, rfl, fun _ => rfl⟩

/-- Settles O51: each word is the encoding of its instruction, and each meaning is one write, of VX, DT or ST; the sound is
active exactly when the ST just written is above 0. -/
theorem timerLoadsCopy : Obligations.TimerLoadsCopy := by
  intro x s
  refine ⟨?ldVxDtWord, ?ldDtVxWord, ?ldStVxWord, ?ldVxDt, ?ldDtVx, ?ldStVx⟩
  case ldVxDtWord => exact decodeWord_fixedDigits_add_x (i := .ldVxDt x) (low := 0x07) rfl rfl
  case ldDtVxWord => exact decodeWord_fixedDigits_add_x (i := .ldDtVx x) (low := 0x15) rfl rfl
  case ldStVxWord => exact decodeWord_fixedDigits_add_x (i := .ldStVx x) (low := 0x18) rfl rfl
  case ldVxDt => exact ⟨_, exec_ldVxDt x s, s.reg_setReg_same x s.dt, s.setReg_dt x s.dt, s.setReg_fault x s.dt⟩
  case ldDtVx => exact ⟨_, exec_ldDtVx x s, rfl, rfl⟩
  case ldStVx => exact ⟨_, exec_ldStVx x s, rfl, State.isSoundActive_iff _, rfl⟩

end Sys2Proof.Machine
end

section
/-! PROOFS. The keypad operations of the host (60_exceptions.md R222): inside the pad each is one write of one flag, outside it a refusal. -/

namespace Sys2Proof.Machine

/-! ### One equation per operation and side of the pad's bound -/

theorem perform_press_inside (s : State) (k : Fin 16) :
    perform (.press k.val) s = .next ({ s with keys := s.keys.set k.val true }, .done) := by
  rw [perform, State.press_inside, answerDone]

theorem perform_release_inside (s : State) (k : Fin 16) :
    perform (.release k.val) s = .next ({ s with keys := s.keys.set k.val false }, .done) := by
  rw [perform, State.release_inside, answerDone]

theorem perform_press_outside (s : State) {k : Nat} (h : 16 ≤ k) :
    perform (.press k) s = .refused (.keyOutOfRange k) := by
  rw [perform, State.press_outside s h, answerDone]

theorem perform_release_outside (s : State) {k : Nat} (h : 16 ≤ k) :
    perform (.release k) s = .refused (.keyOutOfRange k) := by
  rw [perform, State.release_outside s h, answerDone]

/-! ### One flag of the pad -/

/-- A write of one flag is read back at its key and leaves every other flag. -/
theorem getElem_set_key (keys : Vector Bool 16) (k j : Fin 16) (b : Bool) :
    (keys.set k.val b)[j] = if j = k then b else keys[j] := by
  by_cases h : j = k
  · subst h
    simp
  · have hval : k.val ≠ j.val := fun he => h (Fin.ext he.symm)
    simp [h, Vector.getElem_set_ne _ _ hval]

/-- Writing the value a flag already has changes nothing: a repeated press or release. -/
theorem State.set_key_self (s : State) {k : Fin 16} {b : Bool} (h : s.keys[k] = b) :
    { s with keys := s.keys.set k.val b } = s := by
  have hkeys : s.keys.set k.val b = s.keys := by
    rw [← h]
    exact Vector.set_getElem_self k.isLt
  rw [hkeys]

/-- An operation that answers with one flag written changes that flag only, and nothing when the flag had that value. -/
theorem changes_one_key {op : HostOp} {s : State} {k : Fin 16} {b : Bool}
    (h : perform op s = .next ({ s with keys := s.keys.set k.val b }, .done)) :
    ∃ t, perform op s = .next (t, .done) ∧ t = { s with keys := t.keys } ∧
      (∀ j : Fin 16, t.keys[j] = (if j = k then b else s.keys[j])) ∧ (s.keys[k] = b → t = s) :=
  ⟨_, h, rfl, fun j => getElem_set_key s.keys k j b, s.set_key_self⟩

/-! ### Statement -/

/-- Settles O19: inside the pad press and release are one write of the flag they name, outside it both are refused. -/
theorem keysChangeOneAtATime : Obligations.KeysChangeOneAtATime := by
  refine ⟨?press, ?release, ?outside⟩
  case press => exact fun s k => changes_one_key (perform_press_inside s k)
  case release => exact fun s k => changes_one_key (perform_release_inside s k)
  case outside => exact fun s _ hk => ⟨perform_press_outside s hk, perform_release_outside s hk⟩

end Sys2Proof.Machine
end

section
/-! PROOFS. The decoder against the encoder (30_encoding.md R70 to R78): each inverts the other, and the words that are no instruction are those the table leaves out. -/

namespace Sys2Proof

/-! ### A word with known fixed digits is the encoding of its fields (30_encoding.md R72) -/

theorem encodeNNN_of_digit {op : Word} {d : Nat} (hd : (nibble0 op).toNat = d) : encodeNNN d (fieldNNN op) = op := by
  rw [← hd, nibble0_toNat, encodeNNN_fields]

theorem encodeXKK_of_digit {op : Word} {d : Nat} (hd : (nibble0 op).toNat = d) :
    encodeXKK d (fieldX op) (fieldKK op) = op := by
  rw [← hd, nibble0_toNat, encodeXKK_fields]

theorem encodeXYN_of_digits {op : Word} {d n : Nat} (hd : (nibble0 op).toNat = d) (hn : fieldN op = n) :
    encodeXYN d (fieldX op) (fieldY op) n = op := by
  rw [← hd, ← hn, nibble0_toNat, encodeXYN_fields]

theorem encodeXSUB_of_digits {op : Word} {d low : Nat} (hd : (nibble0 op).toNat = d)
    (hlow : (fieldKK op).toNat = low) : encodeXSUB d (fieldX op) low = op := by
  rw [← hd, ← hlow, nibble0_toNat, encodeXSUB_fields]

/-! ### What the decoder answers encodes to the word it was given -/

/-- The answer for `op` loses no bit of it: an instruction encodes to `op`, and an unknown word is `op` itself. -/
def Decoded.SpellsOut (op : Word) : Decoded → Prop
  | .instr i => i.wellFormed = true ∧ encode i = op
  | .unknown w => w = op

theorem decode8_spellsOut {op : Word} (hd : (nibble0 op).toNat = 0x8) : (decode8 op).SpellsOut op := by
  unfold decode8
  split
  iterate 9 · next hn => exact ⟨rfl, encodeXYN_of_digits hd hn⟩
  · rfl

theorem decodeE_spellsOut {op : Word} (hd : (nibble0 op).toNat = 0xE) : (decodeE op).SpellsOut op := by
  unfold decodeE
  split
  iterate 2 · next hlow => exact ⟨rfl, encodeXSUB_of_digits hd hlow⟩
  · rfl

theorem decodeF_spellsOut {op : Word} (hd : (nibble0 op).toNat = 0xF) : (decodeF op).SpellsOut op := by
  unfold decodeF
  split
  iterate 9 · next hlow => exact ⟨rfl, encodeXSUB_of_digits hd hlow⟩
  · rfl

theorem decodeWord_spellsOut (op : Word) : (decodeWord op).SpellsOut op := by
  have hfits : decide (fitsAddress (fieldNNN op)) = true := decide_eq_true (fieldNNN_fits op)
  unfold decodeWord
  split
  case h_1 =>
    split_ifs with hcls hret
    · exact ⟨rfl, hcls.symm⟩
    · exact ⟨rfl, hret.symm⟩
    · rfl
  case h_2 hd | h_3 hd | h_11 hd | h_12 hd => exact ⟨hfits, encodeNNN_of_digit hd⟩
  case h_4 hd | h_5 hd | h_7 hd | h_8 hd | h_13 hd => exact ⟨rfl, encodeXKK_of_digit hd⟩
  case h_6 hd | h_10 hd =>
    split_ifs with hn
    · exact ⟨rfl, encodeXYN_of_digits hd hn⟩
    · rfl
  case h_9 hd => exact decode8_spellsOut hd
  case h_14 hd => exact ⟨decide_eq_true (fieldN_fits op), encodeXYN_of_digits hd rfl⟩
  case h_15 hd => exact decodeE_spellsOut hd
  case h_16 =>
    have hlt := (nibble0 op).isLt
    have hd : (nibble0 op).toNat = 0xF := by
      simp only [imp_false] at *
      omega
    exact decodeF_spellsOut hd

/-- The decoder answers an instruction exactly where the word is the encoding of that well-formed instruction. -/
theorem decodeWord_eq_instr_iff {op : Word} {i : Instr} :
    decodeWord op = .instr i ↔ i.wellFormed = true ∧ encode i = op := by
  constructor
  · intro h
    have hspells := decodeWord_spellsOut op
    rwa [h] at hspells
  · rintro ⟨hwf, rfl⟩
    exact decodeWord_encode hwf

/-! ### Where the decoder answers Unknown (30_encoding.md R77) -/

theorem decode8_eq_unknown_iff (op : Word) :
    decode8 op = .unknown op ↔ op.toNat % 16 ∈ [0x8, 0x9, 0xA, 0xB, 0xC, 0xD, 0xF] := by
  unfold decode8
  rw [fieldN_eq]
  split
  iterate 9 · next hn => simp [hn]
  · next =>
    simp only [imp_false, List.mem_cons, List.not_mem_nil, or_false, true_iff] at *
    omega

theorem decodeE_eq_unknown_iff (op : Word) : decodeE op = .unknown op ↔ op.toNat % 256 ∉ [0x9E, 0xA1] := by
  unfold decodeE
  rw [fieldKK_toNat]
  split
  iterate 2 · next hlow => simp [hlow]
  · simp_all

theorem decodeF_eq_unknown_iff (op : Word) :
    decodeF op = .unknown op ↔ op.toNat % 256 ∉ [0x07, 0x0A, 0x15, 0x18, 0x1E, 0x29, 0x33, 0x55, 0x65] := by
  unfold decodeF
  rw [fieldKK_toNat]
  split
  iterate 9 · next hlow => simp [hlow]
  · simp_all

/-! ### Statements -/

/-- Settles O2: the decoder reads back the word of each format, and the bytes of a word are the word. -/
theorem decodeOfEncode : Obligations.DecodeOfEncode := by
  intro i rest hwf
  have hword := decodeWord_encode hwf
  exact ⟨hword, by rw [decodeBytes_bytesOfWord, hword]⟩

/-- Settles O3: every answer of the decoder spells out its word. -/
theorem encodeOfDecode : Obligations.EncodeOfDecode := fun _ _ => decodeWord_eq_instr_iff.mp

/-- Settles O4: digit by digit, only the families 0, 5, 8, 9, E and F have words of no row, and each lists its own. -/
theorem unknownWordsExactly : Obligations.UnknownWordsExactly := by
  intro op
  have hlt := op.isLt
  have h00E0 : op = 0x00E0 ↔ op.toNat = 0x00E0 := BitVec.toNat_inj.symm
  have h00EE : op = 0x00EE ↔ op.toNat = 0x00EE := BitVec.toNat_inj.symm
  unfold decodeWord
  rw [nibble0_toNat]
  split
  case h_1 hd => split_ifs <;> simp_all
  case h_2 hd | h_3 hd | h_4 hd | h_5 hd | h_7 hd | h_8 hd | h_11 hd | h_12 hd | h_13 hd | h_14 hd => simp [hd]
  case h_6 hd | h_10 hd =>
    rw [fieldN_eq]
    split_ifs with hn <;> simp [hd, hn]
  case h_9 hd => simp [hd, decode8_eq_unknown_iff]
  case h_15 hd => simp [hd, decodeE_eq_unknown_iff]
  case h_16 =>
    have hd : op.toNat / 4096 = 0xF := by
      simp only [imp_false] at *
      omega
    simp [hd, decodeF_eq_unknown_iff]

/-- Settles O1: the words are closed, so the decoder is evaluated on each. -/
theorem sampleWordsDecode : Obligations.SampleWordsDecode := by
  unfold Obligations.SampleWordsDecode
  decide

end Sys2Proof
end

section
/-! PROOFS. The step cycle (30_encoding.md R79 to R82; 60_exceptions.md R205 to R211): one inversion of a running step, and from it what a step runs, what a fault leaves, and the invariant. -/

namespace Sys2Proof.Machine

/-! ### What a step of a running core can do -/

/-- A fault of an instruction leaves the state before its fetch, but for the latch (60_exceptions.md R205). -/
theorem State.raise_advance (s : State) (f : Word → Fault) : s.advance.raise f = { s with fault := some (f s.pc) } := by
  simp only [State.raise, State.takeFault, State.advance, BitVec.add_sub_cancel]

/-- A key wait with no key pressed goes back to its own address (44_keys_timers.md R184). -/
theorem State.retract_advance (s : State) : s.advance.retract = s := by
  simp only [State.retract, State.advance, BitVec.add_sub_cancel]

theorem fetch16_error_bound {m : Memory} {a addr : Nat} (h : fetch16 m a = .error addr) : 4096 ≤ addr := by
  rw [fetch16_eq] at h
  split at h
  · cases h
  · cases h
    exact Nat.le_max_right a 4096

/-- The fetch increment does not wrap after a fetch that answers. -/
theorem advance_pc_toNat {s : State} {op : Word} (h : fetch16 s.mem s.pc.toNat = .ok op) :
    (s.pc + 2).toNat = s.pc.toNat + 2 := by
  have hbound := fetch16_ok_bound h
  bv_omega

/-- The inversion of a step: a running core faults in the fetch, passes over an unknown word, or executes an instruction. -/
inductive StepCase (s : State) : State → Report → Prop where
  | fetchFault (addr : Nat) (hfetch : fetch16 s.mem s.pc.toNat = .error addr) :
      StepCase s { s with fault := some (.memoryOutOfBounds .fetch addr s.pc) }
        (.fault (.memoryOutOfBounds .fetch addr s.pc))
  | unknown (op w : Word) (hfetch : fetch16 s.mem s.pc.toNat = .ok op) (hdecode : decodeWord op = .unknown w) :
      StepCase s s.advance (.event (.unknownOpcode (nibble0 w) (nibble1 w) (nibble2 w) (nibble3 w) s.pc))
  | instr (op : Word) (i : Instr) (t : State) (hfetch : fetch16 s.mem s.pc.toNat = .ok op)
      (hdecode : decodeWord op = .instr i) (hexec : exec i s.advance = .next t) : StepCase s t (reportOf t)

theorem stepReport_answers {s : State} (h : s.fault = none) : ∃ t r, stepReport s = .next (t, r) ∧ StepCase s t r := by
  cases hfetch : fetch16 s.mem s.pc.toNat with
  | error addr => exact ⟨_, _, stepReport_fetchFault h hfetch, .fetchFault addr hfetch⟩
  | ok op =>
    cases hdecode : decodeWord op with
    | unknown w => exact ⟨_, _, stepReport_unknown h hfetch hdecode, .unknown op w hfetch hdecode⟩
    | instr i =>
      obtain ⟨t, hexec⟩ := exec_completes i s.advance
      exact ⟨t, _, stepReport_instr h hfetch hdecode hexec, .instr op i t hfetch hdecode hexec⟩

theorem stepReport_cases {s t : State} {r : Report} (h : s.fault = none) (hstep : stepReport s = .next (t, r)) :
    StepCase s t r := by
  obtain ⟨t', r', hstep', hcase⟩ := stepReport_answers h
  cases hstep.symm.trans hstep'
  exact hcase

theorem stepReport_completes (s : State) : ∃ t r, stepReport s = .next (t, r) := by
  cases h : s.fault with
  | some f => exact ⟨s, _, stepReport_latched h⟩
  | none =>
    obtain ⟨t, r, hstep, -⟩ := stepReport_answers h
    exact ⟨t, r, hstep⟩

/-- A step at a decoded instruction is that instruction after the fetch increment. -/
theorem step_eq_exec {s : State} {op : Word} {i : Instr} (h : s.fault = none) (hfetch : fetch16 s.mem s.pc.toNat = .ok op)
    (hdecode : decodeWord op = .instr i) : step s = exec i s.advance := by
  obtain ⟨t, hexec⟩ := exec_completes i s.advance
  rw [hexec, step_of_report (stepReport_instr h hfetch hdecode hexec)]

/-! ### Statements on one step -/

/-- Settles O5: the two bytes are the fetched word, and the step is its instruction. -/
theorem stepRunsDecoded : Obligations.StepRunsDecoded := by
  intro s hi lo i hrun hhi hlo hdecode
  have hfetch := fetch16_of_bytes hhi hlo
  exact ⟨step_eq_exec hrun hfetch hdecode, fun t hexec => stepReport_instr hrun hfetch hdecode hexec⟩

/-- Settles O7: the step passes over the word, and the four nibbles spell it. -/
theorem unknownWordIsNoOp : Obligations.UnknownWordIsNoOp := by
  intro s hi lo op hrun hhi hlo hop hdecode
  have hfetch : fetch16 s.mem s.pc.toNat = .ok op := by rw [fetch16_of_bytes hhi hlo, hop, wordOfBytes]
  have hreport := stepReport_unknown hrun hfetch hdecode
  refine ⟨step_of_report hreport, _, _, _, _, hreport, ?_⟩
  rw [nibble0_toNat, nibble1_toNat, nibble2_toNat, nibble3_toNat]
  omega

/-- Settles O8: a fetch is its two bytes exactly when both lie in memory, and a failed one is latched at PC. -/
theorem fetchChecksBothBytes : Obligations.FetchChecksBothBytes := by
  refine ⟨?inside, ?lastByte, ?outside, ?latched⟩
  case inside =>
    intro m a ha
    have hhi : memRead m a = .ok (m.cell a) := memRead_ok (by omega)
    have hlo : memRead m (a + 1) = .ok (m.cell (a + 1)) := memRead_ok (by omega)
    exact ⟨_, _, _, hhi, hlo, fetch16_of_bytes hhi hlo, wordOfBytes_toNat _ _⟩
  case lastByte => exact fun m => fetch16_eq m 0xFFF
  case outside =>
    intro m a ha
    rw [fetch16_eq, if_neg (by omega), Nat.max_eq_left ha]
  case latched => exact fun s addr hrun hfetch => stepReport_fetchFault hrun hfetch

/-- Settles O10: a fetch fault and a raised one record the fetch address and undo the increment; on every other path the
latch stays empty. -/
theorem faultsArePrecise : Obligations.FaultsArePrecise := by
  intro s t r f hrun hstep hfault
  cases stepReport_cases hrun hstep with
  | fetchFault addr hfetch =>
    cases hfault
    exact ⟨rfl, rfl, decide_eq_true (fetch16_error_bound hfetch), rfl⟩
  | unknown =>
    rw [State.advance_fault, hrun] at hfault
    cases hfault
  | instr op i _ _ _ hexec =>
    rcases exec_cases hexec with ⟨g, hraised, rfl⟩ | ⟨hkept, -⟩
    · rw [State.raise_advance] at hfault ⊢
      cases hfault
      exact ⟨rfl, hraised.pc_eq s.pc, hraised.sound s.pc, rfl⟩
    · rw [hkept, State.advance_fault, hrun] at hfault
      cases hfault

/-- Settles O11: every path of a step, and every arm of exec, answers a next state. -/
theorem stepAlwaysAnswers : Obligations.StepAlwaysAnswers := by
  refine ⟨fun s => ?_, exec_completes⟩
  obtain ⟨t, r, hstep⟩ := stepReport_completes s
  exact ⟨t, r, hstep, step_of_report hstep⟩

/-! ### A word placed where the next step fetches (log 9) -/

theorem State.fetchAddress_bound (s : State) : s.fetchAddress.toNat + 1 < 4096 := by
  unfold State.fetchAddress
  split
  · assumption
  · decide

theorem State.fetchAddress_of_fetchable {s : State} (h : s.pc.toNat + 1 < 4096) : s.fetchAddress = s.pc := if_pos h

theorem State.fetch16_placeWord (s : State) (op : Word) :
    fetch16 (s.placeWord op).mem (s.placeWord op).pc.toNat = .ok op := by
  have hbound := s.fetchAddress_bound
  rw [State.placeWord_pc, State.placeWord_mem, fetch16_eq, if_pos (by omega), Memory.cell_put_same,
    Memory.cell_put_other _ _ (by omega), Memory.cell_put_same, wordOfBytes_bytes]

theorem State.memRead_placeWord_other (s : State) (op : Word) {b : Nat} (hhi : b ≠ s.fetchAddress.toNat)
    (hlo : b ≠ s.fetchAddress.toNat + 1) : memRead (s.placeWord op).mem b = memRead s.mem b :=
  memRead_congr (by rw [State.placeWord_mem, Memory.cell_put_other _ _ hlo, Memory.cell_put_other _ _ hhi])

/-- The instruction read from a table word is the decoder's answer for its low bits. -/
theorem decodeWord_of_tableWord {nbits w : Nat} {i : Instr} (h : decodeTableWord nbits w = some i) :
    decodeWord (BitVec.ofNat 16 (w % 2 ^ nbits)) = .instr i := by
  have hbytes := decodeBytes_bytesOfWord (BitVec.ofNat 16 (w % 2 ^ nbits)) []
  rw [List.append_nil] at hbytes
  rw [decodeTableWord, hbytes] at h
  cases hdecode : decodeWord (BitVec.ofNat 16 (w % 2 ^ nbits)) with
  | instr j => rw [hdecode] at h; cases h; rfl
  | unknown op => rw [hdecode] at h; cases h

/-- Settles O6: the placed bytes are the next fetch, the latch is clear, and the other bytes are as before. -/
theorem placedWordIsRun : Obligations.PlacedWordIsRun := by
  intro s w i hdecode
  refine ⟨s.fetchAddress, s.fetchAddress_bound, State.fetchAddress_of_fetchable, rfl, ?runs, ?others⟩
  case runs => exact step_eq_exec rfl (s.fetch16_placeWord _) (decodeWord_of_tableWord hdecode)
  case others => exact fun b hhi hlo => s.memRead_placeWord_other _ hhi hlo

/-! ### The invariant (10_state.md R26; 20_memory.md R58; 60_exceptions.md R205) -/

/-- A decoded address operand fits its field. -/
theorem fits_of_decoded {op nnn : Word} {i : Instr} (hdecode : decodeWord op = .instr i)
    (hi : i = .jp nnn ∨ i = .call nnn ∨ i = .jpV0 nnn) : fitsAddress nnn := by
  have hwf := (decodeWord_eq_instr_iff.mp hdecode).1
  rcases hi with rfl | rfl | rfl <;> exact of_decide_eq_true hwf

/-- Latching a fault recorded at PC with sound info keeps the invariant. -/
theorem State.Inv.latch {s : State} (hinv : s.Inv) {f : Fault} (hpc : f.pc = s.pc) (hsound : f.sound s.params = true) :
    State.Inv { s with fault := some f } :=
  { hinv with
    fault_pc := by rintro _ ⟨⟩; exact hpc
    fault_sound := by rintro _ ⟨⟩; exact hsound }

/-- An instruction that raises nothing leaves PC inside [0, 0x10FE] (20_memory.md R58). -/
theorem exec_pc_bound {s : State} {op p : Word} {i : Instr} (hinv : s.Inv)
    (hfetch : fetch16 s.mem s.pc.toNat = .ok op) (hdecode : decodeWord op = .instr i)
    (hp : p = s.advance.pc ∨ p = s.advance.pc + 2 ∨ p = s.advance.pc - 2 ∨ p ∈ s.advance.stack ∨
      (∃ nnn, (i = .jp nnn ∨ i = .call nnn) ∧ p = nnn) ∨ ∃ nnn, i = .jpV0 nnn ∧ p = indexedTarget nnn (s.advance.reg 0)) :
    p.toNat ≤ 0x10FE := by
  have hbound := fetch16_ok_bound hfetch
  rcases hp with rfl | rfl | rfl | hret | ⟨nnn, hi, rfl⟩ | ⟨nnn, hi, rfl⟩
  · rw [State.advance_pc]; bv_omega
  · rw [State.advance_pc]; bv_omega
  · rw [State.advance_pc]; bv_omega
  · have haddr := hinv.stack_addr p hret
    omega
  · have hfits : p.toNat < 0x1000 := fits_of_decoded hdecode (hi.imp_right .inl)
    omega
  · have hfits : nnn.toNat < 0x1000 := fits_of_decoded hdecode (.inr (.inr hi))
    have hv0 := (s.advance.reg 0).isLt
    rw [indexedTarget_toNat _ hfits]
    omega

/-- The stack an instruction leaves keeps its bounds: what CALL pushes is an address no higher than 0x1000. -/
theorem exec_stack_bounds {s : State} {op : Word} {st : List Word} (hinv : s.Inv)
    (hfetch : fetch16 s.mem s.pc.toNat = .ok op)
    (hst : st = s.advance.stack ∨
      (st = s.advance.stack ++ [s.advance.pc] ∧ s.advance.stack.length < s.advance.params.stackDepth) ∨
      st = s.advance.stack.dropLast) :
    st.length ≤ s.params.stackDepth ∧ ∀ a ∈ st, a.toNat ≤ 0x1000 := by
  have hlen := hinv.stack_bound
  have haddr := hinv.stack_addr
  rcases hst with rfl | ⟨rfl, hroom⟩ | rfl
  · exact ⟨hlen, haddr⟩
  · have hpushed : s.advance.pc.toNat ≤ 0x1000 := by
      have hbound := fetch16_ok_bound hfetch
      rw [State.advance_pc, advance_pc_toNat hfetch]
      omega
    refine ⟨by rw [List.length_append]; exact hroom, fun a ha => ?_⟩
    rcases List.mem_append.mp ha with hold | hnew
    · exact haddr a hold
    · rwa [List.mem_singleton.mp hnew]
  · refine ⟨?_, fun a ha => haddr a (List.mem_of_mem_dropLast ha)⟩
    rw [List.length_dropLast, State.advance_stack]
    omega

theorem stepReport_keeps_inv {s t : State} {r : Report} (hinv : s.Inv) (hstep : stepReport s = .next (t, r)) : t.Inv := by
  cases hfault : s.fault with
  | some f =>
    cases hstep.symm.trans (stepReport_latched hfault)
    exact hinv
  | none =>
    cases stepReport_cases hfault hstep with
    | fetchFault addr hfetch => exact hinv.latch rfl (decide_eq_true (fetch16_error_bound hfetch))
    | unknown op w hfetch hdecode =>
      have hbound := fetch16_ok_bound hfetch
      have hpc : s.advance.pc.toNat ≤ 0x10FE := by
        rw [State.advance_pc, advance_pc_toNat hfetch]
        omega
      exact { hinv with
        pc_bound := hpc
        fault_pc := by simp [hfault]
        fault_sound := by simp [hfault] }
    | instr op i _ hfetch hdecode hexec =>
      rcases exec_cases hexec with ⟨f, hraised, rfl⟩ | ⟨hlatch, hparams, -, hmem, hstack, hpc⟩
      · rw [State.raise_advance]
        exact hinv.latch (hraised.pc_eq s.pc) (hraised.sound s.pc)
      · have hnone : t.fault = none := hlatch.trans hfault
        obtain ⟨hlen, haddr⟩ := exec_stack_bounds hinv hfetch hstack
        rw [State.advance_params] at hparams
        exact {
          mem_wf := hmem hinv.mem_wf
          depth_min := hparams ▸ hinv.depth_min
          font_len := hparams ▸ hinv.font_len
          stack_bound := hparams ▸ hlen
          stack_addr := haddr
          pc_bound := exec_pc_bound hinv hfetch hdecode hpc
          fault_pc := by simp [hnone]
          fault_sound := by simp [hnone] }

/-- Settles O12: a step is its report's state part, and the report's state meets the invariant on every path. -/
theorem stepKeepsInvariant : Obligations.StepKeepsInvariant := by
  intro s t hinv hstep
  obtain ⟨u, r, hreport⟩ := stepReport_completes s
  cases hstep.symm.trans (step_of_report hreport)
  exact stepReport_keeps_inv hinv hreport

/-- Settles O13: memory and the stack are empty, PC is 0x200, nothing is latched. -/
theorem resetMeetsInvariant : Obligations.ResetMeetsInvariant where
  mem_wf := rfl
  depth_min := by decide
  font_len := rfl
  stack_bound := Nat.zero_le _
  stack_addr := by rintro _ ⟨⟩
  pc_bound := by decide
  fault_pc := by rintro _ ⟨⟩
  fault_sound := by rintro _ ⟨⟩

end Sys2Proof.Machine
end

section
/-! PROOFS. The host's operations (60_exceptions.md R220 to R226; 70_reset_and_hazards.md R240 to R243): one inversion of an operation, the memory a reset leaves, and runs of ticks and frames. -/

namespace Sys2Proof.Machine

/-! ### What an operation can do -/

theorem perform_reset_fits (s : State) {rom : List Byte} (h : rom.length ≤ 3584) :
    perform (.reset rom) s = .next ({ State.reset with
      mem := resetMemory s.params.fontData rom, params := s.params, draws := s.draws }, .done) := by
  rw [perform, State.resetWith_fits s h, answerDone]

theorem perform_reset_long (s : State) {rom : List Byte} (h : 3584 < rom.length) :
    perform (.reset rom) s = .refused (.romTooLarge rom.length) := by
  rw [perform, State.resetWith_long s h, answerDone]

theorem perform_step {s t : State} {r : Report} (h : stepReport s = .next (t, r)) :
    perform .step s = .next (t, .report r) := by
  rw [perform, h, answerReport]

theorem perform_tickDelay (s : State) :
    perform .tickDelay s = .next ({ s with dt := BitVec.ofNat 8 (s.dt.toNat - 1) }, .done) := by
  rw [perform, State.tickDelay_eq]

theorem perform_tickSound (s : State) :
    perform .tickSound s = .next ({ s with st := BitVec.ofNat 8 (s.st.toNat - 1) }, .done) := by
  rw [perform, State.tickSound_eq]

theorem State.getPixel_inside (s : State) (x : Fin 64) (y : Fin 32) : s.getPixel x.val y.val = .ok s.fb[x][y] :=
  dif_pos ⟨x.isLt, y.isLt⟩

theorem State.getPixel_outside (s : State) {x y : Nat} (h : 64 ≤ x ∨ 32 ≤ y) :
    s.getPixel x y = .error (.pixelOutOfRange x y) :=
  dif_neg (by omega)

theorem State.setKey_next {s t : State} {k : Nat} {b : Bool} {a : Answer}
    (h : answerDone (s.setKey k b) = .next (t, a)) : ∃ keys, t = { s with keys := keys } := by
  unfold State.setKey at h
  split at h
  · cases h
    exact ⟨_, rfl⟩
  · cases h

/-- The inversion of an operation: a reset, a step, or a state that differs in the timers and the keys alone. -/
theorem perform_cases {op : HostOp} {s t : State} {a : Answer} (h : perform op s = .next (t, a)) :
    (∃ rom, op = .reset rom ∧ rom.length ≤ 3584 ∧
      t = { State.reset with mem := resetMemory s.params.fontData rom, params := s.params, draws := s.draws }) ∨
    (∃ r, op = .step ∧ stepReport s = .next (t, r)) ∨
    ∃ dt st keys, t = { s with dt := dt, st := st, keys := keys } := by
  cases op with
  | reset rom =>
    rcases Nat.lt_or_ge 3584 rom.length with hlong | hfits
    · rw [perform_reset_long s hlong] at h
      cases h
    · rw [perform_reset_fits s hfits] at h
      cases h
      exact .inl ⟨rom, rfl, hfits, rfl⟩
  | step =>
    obtain ⟨u, r, hstep⟩ := stepReport_completes s
    rw [perform_step hstep] at h
    cases h
    exact .inr (.inl ⟨r, rfl, hstep⟩)
  | tickDelay =>
    rw [perform_tickDelay] at h
    cases h
    exact .inr (.inr ⟨_, s.st, s.keys, rfl⟩)
  | tickSound =>
    rw [perform_tickSound] at h
    cases h
    exact .inr (.inr ⟨s.dt, _, s.keys, rfl⟩)
  | press k | release k =>
    obtain ⟨keys, rfl⟩ := State.setKey_next h
    exact .inr (.inr ⟨s.dt, s.st, keys, rfl⟩)
  | getPixel x y =>
    rw [perform] at h
    split at h
    · cases h
      exact .inr (.inr ⟨s.dt, s.st, s.keys, rfl⟩)
    · cases h
  | isSoundActive =>
    cases h
    exact .inr (.inr ⟨s.dt, s.st, s.keys, rfl⟩)

/-! ### The latch and the invariant under the operations -/

/-- The invariant reads neither a timer nor a key. -/
theorem State.Inv.set_timers_keys {s : State} (hinv : s.Inv) (dt st : Byte) (keys : Vector Bool 16) :
    State.Inv { s with dt := dt, st := st, keys := keys } :=
  { hinv with }

/-- A reset meets the invariant for every font and program that fit. -/
theorem reset_inv {s : State} (hinv : s.Inv) {rom : List Byte} (hrom : rom.length ≤ 3584) :
    State.Inv { State.reset with mem := resetMemory s.params.fontData rom, params := s.params, draws := s.draws } :=
  { resetMeetsInvariant with
    mem_wf := resetMemory_wf hinv.font_len hrom
    depth_min := hinv.depth_min
    font_len := hinv.font_len
    stack_bound := Nat.zero_le _
    fault_sound := by rintro _ ⟨⟩ }

/-- Settles O14: a reset meets the invariant afresh, a step keeps it, and it reads neither timers nor keys. -/
theorem hostOpsKeepInvariant : Obligations.HostOpsKeepInvariant := by
  intro op s t a hinv h
  rcases perform_cases h with ⟨rom, -, hrom, rfl⟩ | ⟨r, -, hstep⟩ | ⟨dt, st, keys, rfl⟩
  · exact reset_inv hinv hrom
  · exact stepReport_keeps_inv hinv hstep
  · exact hinv.set_timers_keys dt st keys

/-- Settles O9: a latched step answers its own state, and every other operation but reset leaves the latch alone. -/
theorem latchedFaultHolds : Obligations.LatchedFaultHolds := by
  intro s f hlatched
  have hreport := stepReport_latched hlatched
  have hstep := step_of_report hreport
  refine ⟨hstep, hreport, fun op t a h hreset => ?_, fun n => runSteps_stays n hstep⟩
  rcases perform_cases h with ⟨rom, hop, -⟩ | ⟨r, -, hreport'⟩ | ⟨dt, st, keys, rfl⟩
  · exact absurd hop (hreset rom)
  · cases hreport'.symm.trans hreport
    exact hlatched
  · exact hlatched

/-! ### The memory a reset leaves (10_state.md R40) -/

theorem unlisted_font {a : Nat} {b : Byte} (h : Config.fontData[a]? = some b) : unlisted a = b := by
  rw [unlisted, h, Option.getD_some]

/-- Where neither the font nor the program stands, memory reads as it would unlisted. -/
theorem cell_resetMemory (font rom : List Byte) (a : Nat) :
    (resetMemory font rom).cell a =
      if 0x200 ≤ a then (rom[a - 0x200]?).getD ((font[a]?).getD (unlisted a)) else (font[a]?).getD (unlisted a) := by
  simp only [resetMemory, Memory.cell_placeAt, Config.progBase, Config.fontBase, Memory.cell, Nat.zero_le, if_true,
    Nat.sub_zero]

theorem cell_resetMemory_font {font rom : List Byte} {a : Nat} {b : Byte} (ha : a < 0x200) (h : font[a]? = some b) :
    (resetMemory font rom).cell a = b := by
  rw [cell_resetMemory, if_neg (by omega), h, Option.getD_some]

theorem cell_resetMemory_program {font rom : List Byte} {k : Nat} {b : Byte} (h : rom[k]? = some b) :
    (resetMemory font rom).cell (0x200 + k) = b := by
  rw [cell_resetMemory, if_pos (by omega), Nat.add_sub_cancel_left, h, Option.getD_some]

theorem cell_resetMemory_zero {font rom : List Byte} {a : Nat} (hfont : font.length = 80) (ha : 80 ≤ a)
    (hrom : a < 0x200 ∨ 0x200 + rom.length ≤ a) : (resetMemory font rom).cell a = 0 := by
  have hnofont : font[a]? = none := List.getElem?_eq_none (by omega)
  have hnorom (h : 0x200 ≤ a) : rom[a - 0x200]? = none := List.getElem?_eq_none (by omega)
  rw [cell_resetMemory, hnofont, Option.getD_none, unlisted_above ha]
  split_ifs with h
  · rw [hnorom h, Option.getD_none]
  · rfl

/-- Settles O15: memory lists no cell, so an address reads as the font or as zero; the other fields are literal. -/
theorem resetValues : Obligations.ResetValues := by
  have hregs (x : Reg) : State.reset.reg x = 0 := Vector.getElem_replicate x.isLt
  have hkeys (k : Fin 16) : State.reset.keys[k] = false := Vector.getElem_replicate k.isLt
  refine ⟨hregs, rfl, rfl, rfl, rfl, rfl, hkeys, Framebuffer.pixel_clear, rfl, ?font, ?zero, ?outside⟩
  case font =>
    intro d j hd hj
    have hlen : 5 * d + j < Config.fontData.length := by
      have hfont : Config.fontData.length = 80 := rfl
      omega
    have hb := List.getElem?_eq_getElem hlen
    refine ⟨_, hb, ?_⟩
    rw [memRead_ok (by omega), ← unlisted_font hb]
    rfl
  case zero =>
    intro a hfont ha
    rw [memRead_ok ha, ← unlisted_above hfont]
    rfl
  case outside => exact fun a ha => memRead_error ha

/-- Settles O16: the reset's memory is the font and the program placed over nothing, read range by range. -/
theorem resetLoadsProgram : Obligations.ResetLoadsProgram := by
  intro s rom hrom hfont
  refine ⟨_, perform_reset_fits s hrom, rfl, ?font, ?gap, ?program, ?rest⟩
  case font =>
    intro a ha
    have hb := List.getElem?_eq_getElem (show a < s.params.fontData.length by omega)
    exact ⟨_, hb, by rw [memRead_ok (by omega), cell_resetMemory_font (by omega) hb]⟩
  case gap =>
    intro a hlo hhi
    rw [memRead_ok (by omega), cell_resetMemory_zero hfont hlo (.inl hhi)]
  case program =>
    intro k hk
    have hb := List.getElem?_eq_getElem hk
    exact ⟨_, hb, by rw [memRead_ok (by omega), cell_resetMemory_program hb]⟩
  case rest =>
    intro a hlo hhi
    rw [memRead_ok hhi, cell_resetMemory_zero hfont (by omega) (.inr hlo)]

/-- Settles O17: the length is checked first. -/
theorem longProgramRefused : Obligations.LongProgramRefused := fun s _ hlong => perform_reset_long s hlong

/-! ### Ticks, queries and frames (60_exceptions.md R220 to R226) -/

theorem toNat_tickedByte (b : Byte) : (BitVec.ofNat 8 (b.toNat - 1)).toNat = b.toNat - 1 := by
  have hlt := b.isLt
  rw [BitVec.toNat_ofNat, Nat.mod_eq_of_lt (by omega)]

theorem runOps_nil (s : State) : runOps [] s = .next (s, []) := rfl

/-- A run of delay ticks subtracts one each, saturating at 0. -/
theorem runOps_tickDelay (n : Nat) (s : State) :
    ∃ dt as, runOps (List.replicate n .tickDelay) s = .next ({ s with dt := dt }, as) ∧ dt.toNat = s.dt.toNat - n := by
  induction n generalizing s with
  | zero => exact ⟨s.dt, [], rfl, rfl⟩
  | succ n ih =>
    obtain ⟨dt, as, hrun, hdt⟩ := ih { s with dt := BitVec.ofNat 8 (s.dt.toNat - 1) }
    refine ⟨dt, .done :: as, runOps_cons (perform_tickDelay s) hrun, ?_⟩
    rw [hdt, toNat_tickedByte]
    omega

/-- Settles O18: a tick is one saturating subtraction, and a run of ticks is that many of them. -/
theorem ticksSaturateAtZero : Obligations.TicksSaturateAtZero := by
  refine ⟨?delay, ?sound, ?run⟩
  case delay => exact fun s => ⟨_, perform_tickDelay s, rfl, toNat_tickedByte s.dt⟩
  case sound => exact fun s => ⟨_, perform_tickSound s, rfl, toNat_tickedByte s.st⟩
  case run =>
    intro n s
    obtain ⟨dt, as, hrun, hdt⟩ := runOps_tickDelay n s
    exact ⟨_, as, hrun, rfl, hdt⟩

/-- Settles O20: each query answers beside the state it was given, and a pixel outside the grid is refused. -/
theorem queriesChangeNothing : Obligations.QueriesChangeNothing := by
  refine ⟨?sound, ?pixel, ?outside⟩
  case sound => exact fun s => ⟨s.isSoundActive, rfl, s.isSoundActive_iff⟩
  case pixel =>
    intro s x y
    rw [perform, State.getPixel_inside]
  case outside =>
    intro s x y h
    rw [perform, State.getPixel_outside s h]

/-- A schedule that begins with n steps goes on from the state the n steps leave, one answer per step. -/
theorem runOps_steps_append (n : Nat) (s : State) :
    ∃ u, runSteps n s = .next u ∧ ∀ ops t bs, runOps ops u = .next (t, bs) →
      ∃ as, as.length = n + bs.length ∧ runOps (List.replicate n .step ++ ops) s = .next (t, as) := by
  induction n generalizing s with
  | zero => exact ⟨s, rfl, fun _ _ bs h => ⟨bs, by omega, h⟩⟩
  | succ n ih =>
    obtain ⟨s', r, hstep⟩ := stepReport_completes s
    obtain ⟨u, hrun, hrest⟩ := ih s'
    refine ⟨u, by rw [runSteps_succ n (step_of_report hstep), hrun], fun ops t bs h => ?_⟩
    obtain ⟨as, hlen, has⟩ := hrest ops t bs h
    exact ⟨.report r :: as, by rw [List.length_cons]; omega, runOps_cons (perform_step hstep) has⟩

/-- Settles O21: a frame is its steps, which always complete, and then one tick of each timer. -/
theorem frameTicksOnce : Obligations.FrameTicksOnce := by
  intro n s
  obtain ⟨u, hrun, hrest⟩ := runOps_steps_append n s
  have hticks := runOps_cons (perform_tickDelay u) (runOps_cons (perform_tickSound _) (runOps_nil _))
  obtain ⟨as, hlen, hframe⟩ := hrest _ _ _ hticks
  exact ⟨u, _, as, hrun, hframe, hlen, rfl, toNat_tickedByte u.dt, toNat_tickedByte u.st⟩

end Sys2Proof.Machine
end

section
/-! PROOFS. Calls, returns, jumps and skips (40_control_flow.md R100 to R109; 44_keys_timers.md R180 to R182): each path is one equation, and a fault leaves the state before the step. -/

namespace Sys2Proof.Machine

/-! ### Frames -/

/-- A raised fault is the frame of 60_exceptions.md R205: PC back, the latch set, and memory the same map. -/
theorem faultsWith_raise (s : State) (f : Word → Fault) : FaultsWith s (s.raise f) f := ⟨rfl, fun _ => rfl⟩

theorem sameMemory_of_mem_eq {s t : State} (h : t.mem = s.mem) : SameMemory s t := fun _ => by rw [h]

/-- What an instruction answers is determined: an equation for its next state holds of any state it answers. -/
theorem exec_next_unique {i : Instr} {s t u : State} (h : exec i s = .next t) (hu : exec i s = .next u) : t = u := by
  cases h.symm.trans hu
  rfl

theorem exec_jpV0 (nnn : Word) (s : State) :
    exec (.jpV0 nnn) s = .next { s with pc := indexedTarget nnn (s.reg 0) } := rfl

/-- An instruction whose next state is PC written moves PC only. -/
theorem movesPcOnly {i : Instr} {s t : State} {p : Word} (h : exec i s = .next t)
    (heq : exec i s = .next { s with pc := p }) : t = { s with pc := t.pc } ∧ SameMemory s t := by
  cases exec_next_unique h heq
  exact ⟨rfl, sameMemory_of_mem_eq rfl⟩

/-! ### Statements -/

/-- Settles O23: with room CALL is one push and a jump, and on a full stack it raises. -/
theorem callPushesReturnAddress : Obligations.CallPushesReturnAddress := by
  intro nnn s
  refine ⟨?word, ?room, ?full⟩
  case word => exact fun h => decodeWord_encode (i := .call nnn) (decide_eq_true h)
  case room => exact fun hroom => ⟨_, exec_call_room nnn hroom, rfl, sameMemory_of_mem_eq rfl⟩
  case full => exact fun hfull => ⟨_, exec_call_full nnn hfull.ge, faultsWith_raise s _⟩

/-- Settles O24: RET takes the last entry off the stack, and on an empty one it raises. -/
theorem retPopsReturnAddress : Obligations.RetPopsReturnAddress := by
  refine ⟨decodeWord_encode (i := .ret) rfl, ?pop, ?empty⟩
  case pop => exact fun s rest top hstack => ⟨_, exec_ret_pop hstack, rfl, sameMemory_of_mem_eq rfl⟩
  case empty => exact fun s hempty => ⟨_, exec_ret_empty hempty, faultsWith_raise s _⟩

/-- Settles O25: a 12-bit address plus a byte does not wrap 16 bits. -/
theorem indexedJumpAddsV0 : Obligations.IndexedJumpAddsV0 := by
  intro nnn s hfits
  have hv0 := (s.reg 0).isLt
  have htarget : (indexedTarget nnn (s.reg 0)).toNat = nnn.toNat + (s.reg 0).toNat := indexedTarget_toNat _ hfits
  refine ⟨_, exec_jpV0 nnn s, htarget, ?_, rfl, sameMemory_of_mem_eq rfl⟩
  change (indexedTarget nnn (s.reg 0)).toNat ≤ 0x10FE
  omega

/-- Settles O27: each of the six is PC written and nothing else. -/
theorem pcInstructionsMovePcOnly : Obligations.PcInstructionsMovePcOnly := by
  intro nnn x y kk i s t hi h
  simp only [List.mem_cons, List.not_mem_nil, or_false] at hi
  rcases hi with rfl | rfl | rfl | rfl | rfl | rfl
  · exact movesPcOnly h (exec_jp nnn s)
  · exact movesPcOnly h (exec_jpV0 nnn s)
  · exact movesPcOnly h (exec_seImm x kk s)
  · exact movesPcOnly h (exec_sneImm x kk s)
  · exact movesPcOnly h (exec_seReg x y s)
  · exact movesPcOnly h (exec_sneReg x y s)

/-- Settles O28: below 16 VX names a key and the skip is on its flag; from 16 on both raise. -/
theorem skipsOnKey : Obligations.SkipsOnKey := by
  intro x s
  refine ⟨fun k hk => ⟨?skp, ?sknp⟩, fun hout => ⟨?skpFault, ?sknpFault⟩⟩
  case skp => exact ⟨_, exec_skp_key hk, rfl, sameMemory_of_mem_eq rfl⟩
  case sknp => exact ⟨_, exec_sknp_key hk, rfl, sameMemory_of_mem_eq rfl⟩
  case skpFault => exact ⟨_, exec_skp_fault hout, faultsWith_raise s _⟩
  case sknpFault => exact ⟨_, exec_sknp_fault hout, faultsWith_raise s _⟩

/-- Settles O29: the CALL leaves the old stack below the advanced PC, which is what the RET pops. -/
theorem callReturnRoundTrip : Obligations.CallReturnRoundTrip := by
  intro nnn s t u hroom hcall hstack
  cases exec_next_unique hcall (exec_call_room nnn hroom)
  exact ⟨rfl, _, exec_ret_pop hstack, rfl, sameMemory_of_mem_eq rfl⟩

end Sys2Proof.Machine
end

section
/-! PROOFS. The ALU (41_alu.md R121 to R134): a write of VX keeps every other register and all other state, and a flag-writing instruction writes VX and then VF. -/

namespace Sys2Proof.Machine

/-! ### The frame of a register write -/

theorem sameRegsExcept_setReg (s : State) (x : Reg) (b : Byte) : SameRegsExcept [x] s (s.setReg x b) :=
  fun _ hy => s.reg_setReg_other b (List.ne_of_not_mem_cons hy)

theorem onlyRegs_setReg (s : State) (x : Reg) (b : Byte) : OnlyRegs s (s.setReg x b) :=
  ⟨rfl, sameMemory_of_mem_eq rfl⟩

/-- The result and the flag of an ALU instruction, as numbers (41_alu.md R133). -/
theorem resultAndFlag_setResultFlag (s : State) (x : Reg) {b : Byte} {c : Bool} {result flag : Nat}
    (hresult : b.toNat = result) (hflag : (flagByte c).toNat = flag) :
    ResultAndFlag s (s.setResultFlag x b c) x result flag := by
  refine ⟨?flag, ?result, ?others, rfl, sameMemory_of_mem_eq rfl⟩
  case flag => rw [State.reg_setResultFlag_vf, hflag]
  case result =>
    intro hx
    rw [State.reg_setResultFlag_dest s b c hx, hresult]
  case others =>
    intro y hy
    simp only [List.mem_cons, List.not_mem_nil, or_false, not_or] at hy
    exact s.reg_setResultFlag_other b c hy.1 hy.2

theorem carryFlag_toNat (a b : Byte) :
    (flagByte (carryFlag a b)).toNat = if a.toNat + b.toNat > 255 then 1 else 0 := by
  simp only [flagByte_toNat, carryFlag, decide_eq_true_eq]

theorem noBorrowFlag_toNat (a b : Byte) :
    (flagByte (noBorrowFlag a b)).toNat = if a.toNat ≥ b.toNat then 1 else 0 := by
  simp only [flagByte_toNat, noBorrowFlag, decide_eq_true_eq]

/-! ### One equation per instruction -/

theorem exec_orReg (x y : Reg) (s : State) : exec (.orReg x y) s = .next (s.setReg x (s.reg x ||| s.reg y)) := rfl

theorem exec_andReg (x y : Reg) (s : State) : exec (.andReg x y) s = .next (s.setReg x (s.reg x &&& s.reg y)) := rfl

theorem exec_xorReg (x y : Reg) (s : State) : exec (.xorReg x y) s = .next (s.setReg x (s.reg x ^^^ s.reg y)) := rfl

theorem exec_addReg (x y : Reg) (s : State) : exec (.addReg x y) s =
    .next (s.setResultFlag x (sumByte (s.reg x) (s.reg y)) (carryFlag (s.reg x) (s.reg y))) := rfl

theorem exec_sub (x y : Reg) (s : State) : exec (.sub x y) s =
    .next (s.setResultFlag x (diffByte (s.reg x) (s.reg y)) (noBorrowFlag (s.reg x) (s.reg y))) := rfl

theorem exec_subn (x y : Reg) (s : State) : exec (.subn x y) s =
    .next (s.setResultFlag x (diffByte (s.reg y) (s.reg x)) (noBorrowFlag (s.reg y) (s.reg x))) := rfl

theorem exec_shr (x y : Reg) (s : State) : exec (.shr x y) s =
    .next (s.setResultFlag x (shiftRightByte (s.reg x)) (lowBitFlag (s.reg x))) := rfl

theorem exec_shl (x y : Reg) (s : State) : exec (.shl x y) s =
    .next (s.setResultFlag x (shiftLeftByte (s.reg x)) (highBitFlag (s.reg x))) := rfl

theorem exec_rnd (x : Reg) (kk : Byte) (s : State) : exec (.rnd x kk) s =
    .next { s.setReg x (Config.randomByte s.draws &&& kk) with draws := s.draws + 1 } := rfl

/-- With some key pressed the key wait is one write of VX (44_keys_timers.md R184). -/
theorem exec_ldVxK_pressed {s : State} (x : Reg) (h : ∃ k : Fin 16, s.keys[k] = true) :
    ∃ b, exec (.ldVxK x) s = .next (s.setReg x b) := by
  cases hlow : lowestPressed s.keys with
  | some k => exact ⟨BitVec.ofNat 8 k.val, by simp only [exec, execLdVxK, hlow]⟩
  | none =>
    obtain ⟨k, hk⟩ := h
    rw [lowestPressed_eq_none.mp hlow k] at hk
    cases hk

/-- An instruction whose next state is VX written changes VX only. -/
theorem writesVxOnly {i : Instr} {s t : State} {x : Reg} {b : Byte} (h : exec i s = .next t)
    (heq : exec i s = .next (s.setReg x b)) : SameRegsExcept [x] s t ∧ OnlyRegs s t := by
  cases exec_next_unique h heq
  exact ⟨sameRegsExcept_setReg s x b, onlyRegs_setReg s x b⟩

/-! ### Statements -/

/-- Settles O32: each of the five is one write of VX. -/
theorem loadsWriteVxOnly : Obligations.LoadsWriteVxOnly := by
  intro x y kk i s t h hi
  simp only [List.mem_cons, List.not_mem_nil, or_false] at hi
  rcases hi with (rfl | rfl | rfl | rfl) | ⟨rfl, hpressed⟩
  · exact writesVxOnly h (exec_ldImm x kk s)
  · exact writesVxOnly h (exec_addImm x kk s)
  · exact writesVxOnly h (exec_ldReg x y s)
  · exact writesVxOnly h (exec_ldVxDt x s)
  · obtain ⟨b, hexec⟩ := exec_ldVxK_pressed x hpressed
    exact writesVxOnly h hexec

/-- Settles O33: each is one write of VX, whose bits are the operation on the operands' bits. -/
theorem bitwiseOpsWriteVx : Obligations.BitwiseOpsWriteVx := by
  intro x y s
  refine ⟨⟨_, exec_orReg x y s, ?or, writesVxOnly (exec_orReg x y s) rfl⟩,
    ⟨_, exec_andReg x y s, ?and, writesVxOnly (exec_andReg x y s) rfl⟩,
    ⟨_, exec_xorReg x y s, ?xor, writesVxOnly (exec_xorReg x y s) rfl⟩⟩
  case or => exact fun j => by rw [State.reg_setReg_same, BitVec.getLsbD_or]
  case and => exact fun j => by rw [State.reg_setReg_same, BitVec.getLsbD_and]
  case xor => exact fun j => by rw [State.reg_setReg_same, BitVec.getLsbD_xor]

/-- Settles O34: the sum and its carry. -/
theorem addSetsCarry : Obligations.AddSetsCarry := fun x y s =>
  ⟨_, exec_addReg x y s, resultAndFlag_setResultFlag s x (sumByte_toNat _ _) (carryFlag_toNat _ _)⟩

/-- Settles O35: the difference and its no-borrow flag, the operands in either order. -/
theorem subtractionsSetNoBorrow : Obligations.SubtractionsSetNoBorrow := fun x y s =>
  ⟨⟨_, exec_sub x y s, resultAndFlag_setResultFlag s x (diffByte_toNat _ _) (noBorrowFlag_toNat _ _)⟩,
    ⟨_, exec_subn x y s, resultAndFlag_setResultFlag s x (diffByte_toNat _ _) (noBorrowFlag_toNat _ _)⟩⟩

/-- Settles O36: the shifted byte and the bit at the end it was shifted out of. -/
theorem shiftsSetShiftedOutBit : Obligations.ShiftsSetShiftedOutBit := fun x y s =>
  ⟨⟨_, exec_shr x y s, resultAndFlag_setResultFlag s x (shiftRightByte_toNat _) (lowBitFlag_toNat _)⟩,
    ⟨_, exec_shl x y s, resultAndFlag_setResultFlag s x (shiftLeftByte_toNat _) (highBitFlag_toNat _)⟩⟩

/-- Settles O37: VX is the mask of the byte drawn at the counter, which moves on. -/
theorem randomByteIsMasked : Obligations.RandomByteIsMasked := by
  intro x kk s
  have hvx : (s.setReg x (Config.randomByte s.draws &&& kk)).reg x = Config.randomByte s.draws &&& kk :=
    s.reg_setReg_same x _
  refine ⟨_, exec_rnd x kk s, ?bits, ?zero, ?full, sameRegsExcept_setReg s x _, rfl, sameMemory_of_mem_eq rfl⟩
  case bits => exact fun j => (congrArg (·.getLsbD j) hvx).trans BitVec.getLsbD_and
  case zero =>
    rintro rfl
    exact hvx.trans BitVec.and_zero
  case full =>
    rintro rfl
    exact hvx.trans BitVec.and_allOnes

end Sys2Proof.Machine
end

section
/-! PROOFS. The index register and the memory instructions (42_index_memory.md R150 to R155): a store in bounds is its bytes placed at I, a load in bounds is the cells from I, and an access out of bounds raises with nothing done. -/

namespace Sys2Proof.Machine

/-! ### Equations and frames -/

theorem exec_addIVx (x : Reg) (s : State) : exec (.addIVx x) s = .next { s with i := indexSum s.i (s.reg x) } := rfl

theorem exec_ldFVx (x : Reg) (s : State) : exec (.ldFVx x) s = .next { s with i := glyphAddress (s.reg x) } := rfl

/-- Bytes placed at an address leave every byte outside their run. -/
theorem sameMemoryOutside_placeAt (s : State) (a : Nat) (bs : List Byte) :
    SameMemoryOutside s { s with mem := Memory.placeAt s.mem a bs } a bs.length :=
  fun _ hb => memRead_congr (s.mem.cell_placeAt_outside hb)

/-- A byte placed inside memory is what its address reads as. -/
theorem memRead_placeAt (m : Memory) {a j : Nat} {bs : List Byte} {b : Byte} (ha : a + j < 4096) (hb : bs[j]? = some b) :
    memRead (Memory.placeAt m a bs) (a + j) = .ok b := by
  rw [memRead_ok ha, Memory.cell_placeAt, if_pos (Nat.le_add_right a j), Nat.add_sub_cancel_left, hb, Option.getD_some]

/-- A loaded register holds its cell of the run from I, and a register above the run is as before. -/
theorem reg_loadRun (s : State) (m : Memory) (a : Nat) (x j : Reg) :
    (s.loadRegs ((List.range (x.val + 1)).map fun k => m.cell (a + k))).reg j =
      if j.val ≤ x.val then m.cell (a + j.val) else s.reg j := by
  rw [State.reg_loadRegs, List.getElem?_map]
  split_ifs with h
  · rw [List.getElem?_range (by omega), Option.map_some, Option.getD_some]
  · rw [List.getElem?_eq_none (by rw [List.length_range]; omega), Option.map_none, Option.getD_none]

theorem onlyRegs_loadRegs (s : State) (bs : List Byte) : OnlyRegs s (s.loadRegs bs) :=
  ⟨rfl, sameMemory_of_mem_eq rfl⟩

/-! ### Statements -/

/-- Settles O39: each is one write of I. -/
theorem indexArithmetic : Obligations.IndexArithmetic := fun x s =>
  ⟨⟨_, exec_addIVx x s, indexSum_toNat s.i (s.reg x), rfl, sameMemory_of_mem_eq rfl⟩,
    ⟨_, exec_ldFVx x s, glyphAddress_toNat (s.reg x), rfl, sameMemory_of_mem_eq rfl⟩⟩

/-- Settles O40: in bounds the three digits are placed at I, out of bounds the store raises. -/
theorem bcdStoresDigits : Obligations.BcdStoresDigits := by
  intro x s
  refine ⟨fun hin => ?_, fun hout => ⟨_, exec_ldBVx_fault x (by omega), faultsWith_raise s _⟩⟩
  have hdigits := bcdDigits_toNat (s.reg x)
  simp only [bcdDigits, List.map_cons, List.map_nil, List.cons.injEq, and_true] at hdigits
  obtain ⟨hhundreds, htens, hunits⟩ := hdigits
  exact ⟨_, _, _, _, exec_ldBVx_store x (by omega), memRead_placeAt s.mem (j := 0) (by omega) rfl,
    memRead_placeAt s.mem (by omega) rfl, memRead_placeAt s.mem hin rfl, hhundreds, htens, hunits, rfl,
    sameMemoryOutside_placeAt s _ (bcdDigits (s.reg x))⟩

/-- Settles O41: in bounds the registers are placed at I, out of bounds the store raises. -/
theorem registerDumpStoresRun : Obligations.RegisterDumpStoresRun := by
  intro x s
  refine ⟨fun hin => ⟨_, exec_ldMemVx_store hin, ?stored, rfl, ?outside⟩,
    fun hout => ⟨_, exec_ldMemVx_fault hout, faultsWith_raise s _⟩⟩
  case stored =>
    intro j hj
    rw [memRead_ok (by omega), cell_dump s hj]
  case outside =>
    have hframe := sameMemoryOutside_placeAt s s.i.toNat (s.regsTo x)
    rwa [State.length_regsTo] at hframe

/-- Settles O42: in bounds the registers up to VX are the cells from I, out of bounds the load raises. -/
theorem registerLoadReadsRun : Obligations.RegisterLoadReadsRun := by
  intro x s
  refine ⟨fun hin => ⟨_, exec_ldVxMem_load hin, ?loaded, ?above, onlyRegs_loadRegs s _⟩,
    fun hout => ⟨_, exec_ldVxMem_fault hout, faultsWith_raise s _⟩⟩
  case loaded =>
    intro j hj
    rw [memRead_ok (by omega), reg_loadRun, if_pos hj]
  case above =>
    intro j hj
    rw [reg_loadRun, if_neg (by omega)]

/-- Settles O43: the load reads the cells the dump stored, at the same I. -/
theorem dumpThenLoadRestores : Obligations.DumpThenLoadRestores := by
  intro x s t u hin hdump hmem hi
  cases exec_next_unique hdump (exec_ldMemVx_store hin)
  refine ⟨_, exec_ldVxMem_load (by rwa [hi]), ?restored, ?above, onlyRegs_loadRegs u _⟩
  case restored =>
    intro j hj
    rw [reg_loadRun, if_pos hj, hmem, hi, cell_dump s hj]
  case above =>
    intro j hj
    rw [reg_loadRun, if_neg (by omega)]

/-- Settles O44: the two cells of the fetch are two neighbouring registers of the dump. -/
theorem storedBytesAreFetched : Obligations.StoredBytesAreFetched := by
  intro x j k s t hin hdump hk hkx
  cases exec_next_unique hdump (exec_ldMemVx_store hin)
  have hhi := cell_dump s (show j.val ≤ x.val by omega)
  have hlo := cell_dump s hkx
  rw [hk, ← Nat.add_assoc] at hlo
  refine ⟨_, by rw [fetch16_eq, if_pos (by omega)], ?_⟩
  rw [wordOfBytes_toNat, hhi, hlo]

end Sys2Proof.Machine
end

section
/-! PROOFS. The draw (43_display.md R171, R172): one XOR of the sprite bits, with the collision as the flag, and what two equal draws do. -/

namespace Sys2Proof.Machine

/-! ### The bits of a sprite -/

theorem exists_getLsbD_of_ne_zero {b : Byte} (h : b ≠ 0) : ∃ k, k < 8 ∧ b.getLsbD k = true := by
  by_contra hnone
  push Not at hnone
  refine h (BitVec.eq_of_getLsbD_eq fun k hk => ?_)
  rw [Bool.eq_false_of_not_eq_true (hnone k hk), BitVec.ofNat_eq_ofNat, BitVec.getLsbD_zero]

/-- A sprite of at most 32 rows has a set bit exactly when one of its bytes is not zero: every bit of every byte has a cell. -/
theorem exists_spriteBit_iff (m : Memory) (base x0 y0 : Nat) {n : Nat} (hn : n ≤ 32) :
    (∃ c r, spriteBit m base x0 y0 n c r = true) ↔ ∃ j, j < n ∧ m.cell (base + j) ≠ 0 := by
  constructor
  · rintro ⟨c, r, hbit⟩
    simp only [spriteBit, Bool.and_eq_true, decide_eq_true_eq] at hbit
    obtain ⟨⟨hrow, -⟩, hset⟩ := hbit
    refine ⟨_, hrow, fun hzero => ?_⟩
    rw [hzero, BitVec.ofNat_eq_ofNat, BitVec.getLsbD_zero] at hset
    cases hset
  · rintro ⟨j, hj, hne⟩
    obtain ⟨k, hk, hset⟩ := exists_getLsbD_of_ne_zero hne
    refine ⟨Fin.ofNat 64 (x0 + (7 - k)), Fin.ofNat 32 (y0 + j), ?_⟩
    have hcol : ((Fin.ofNat 64 (x0 + (7 - k))).val + 64 - x0 % 64) % 64 = 7 - k := by
      rw [Fin.val_ofNat]
      omega
    have hrow : ((Fin.ofNat 32 (y0 + j)).val + 32 - y0 % 32) % 32 = j := by
      rw [Fin.val_ofNat]
      omega
    have hflip : 7 - (7 - k) = k := by omega
    simp only [spriteBit, hcol, hrow, hflip, hset, Bool.and_true, Bool.and_eq_true, decide_eq_true_eq]
    omega

/-! ### What a draw does -/

/-- The bits DRW VX, VY, N draws in the state s. -/
def State.sprite (s : State) (x y : Reg) (n : Nat) : Fin 64 → Fin 32 → Bool :=
  spriteBit s.mem s.i.toNat (s.reg x).toNat (s.reg y).toNat n

/-- t is s with `bits` XORed into the framebuffer and VF 1 exactly when a bit meets a set pixel, else 0 (43_display.md R171). -/
structure DrawsBits (s t : State) (bits : Fin 64 → Fin 32 → Bool) : Prop where
  pixel : ∀ c r, t.fb.pixel c r = (s.fb.pixel c r ^^ bits c r)
  flag_bit : t.reg Reg.vf = 0 ∨ t.reg Reg.vf = 1
  flag_hit : t.reg Reg.vf = 1 ↔ ∃ c r, s.fb.pixel c r = true ∧ bits c r = true
  regs : SameRegsExcept [Reg.vf] s t
  frame : t = { s with v := t.v, fb := t.fb }

theorem DrawsBits.mem_eq {s t : State} {bits : Fin 64 → Fin 32 → Bool} (h : DrawsBits s t bits) : t.mem = s.mem := by
  rw [h.frame]

theorem DrawsBits.i_eq {s t : State} {bits : Fin 64 → Fin 32 → Bool} (h : DrawsBits s t bits) : t.i = s.i := by
  rw [h.frame]

theorem flagByte_eq_zero_or_one (c : Bool) : flagByte c = 0 ∨ flagByte c = 1 := by cases c <;> decide

theorem flagByte_eq_one_iff (c : Bool) : flagByte c = 1 ↔ c = true := by cases c <;> decide

theorem exec_drw_drawsBits {s : State} (x y : Reg) {n : Nat} (hrows : n ≤ 32) (hin : n = 0 ∨ s.i.toNat + n ≤ 4096) :
    ∃ t, exec (.drw x y n) s = .next t ∧ DrawsBits s t (s.sprite x y n) := by
  have hlen : ((List.range n).map fun j => s.mem.cell (s.i.toNat + j)).length ≤ 32 := by
    rwa [List.length_map, List.length_range]
  have hspec := (drawSprite_spec (s.fb, false) (s.reg x).toNat (s.reg y).toNat _ hlen).congr
    (listBit_eq_spriteBit s.mem s.i.toNat (s.reg x).toNat (s.reg y).toNat n)
  refine ⟨_, exec_drw_draw x y hin, hspec.pixel, ?flagBit, ?flagHit, ?regs, rfl⟩
  case flagBit =>
    rw [State.reg_drawAt_vf]
    exact flagByte_eq_zero_or_one _
  case flagHit =>
    rw [State.reg_drawAt_vf, flagByte_eq_one_iff, hspec.flag]
    simp only [Bool.false_eq_true, false_or, State.sprite]
  case regs => exact fun z hz => s.reg_drawAt_other _ _ _ (List.ne_of_not_mem_cons hz)

/-- The flag in R171's words: it is 1 exactly when a set pixel is cleared. -/
theorem DrawsBits.flag_cleared {s t : State} {bits : Fin 64 → Fin 32 → Bool} (h : DrawsBits s t bits) :
    t.reg Reg.vf = 1 ↔ ∃ c r, s.fb.pixel c r = true ∧ t.fb.pixel c r = false := by
  have hcell (c : Fin 64) (r : Fin 32) : (s.fb.pixel c r = true ∧ bits c r = true) ↔
      (s.fb.pixel c r = true ∧ t.fb.pixel c r = false) := by
    rw [h.pixel c r]
    cases s.fb.pixel c r <;> cases bits c r <;> decide
  simp only [h.flag_hit, hcell]

/-- A draw that leaves VX and VY alone leaves the next draw of that instruction its bits. -/
theorem DrawsBits.sprite_eq {s t : State} {bits : Fin 64 → Fin 32 → Bool} (h : DrawsBits s t bits) {x y : Reg}
    (hx : x ≠ Reg.vf) (hy : y ≠ Reg.vf) (n : Nat) : t.sprite x y n = s.sprite x y n := by
  have hregx : t.reg x = s.reg x := h.regs x (by simpa using hx)
  have hregy : t.reg y = s.reg y := h.regs y (by simpa using hy)
  rw [State.sprite, State.sprite, h.mem_eq, h.i_eq, hregx, hregy]

/-- Two draws of the same bits cancel. -/
theorem DrawsBits.fb_twice {s t u : State} {bits : Fin 64 → Fin 32 → Bool} (h : DrawsBits s t bits)
    (h' : DrawsBits t u bits) : u.fb = s.fb :=
  Framebuffer.ext_pixel fun c r => by rw [h'.pixel, h.pixel, Bool.xor_assoc, Bool.xor_self, Bool.xor_false]

/-- The second of two draws of the same bits collides where the first one set a clear pixel. -/
theorem DrawsBits.flag_twice {s t u : State} {bits : Fin 64 → Fin 32 → Bool} (h : DrawsBits s t bits)
    (h' : DrawsBits t u bits) : u.reg Reg.vf = 1 ↔ ∃ c r, s.fb.pixel c r = false ∧ bits c r = true := by
  have hcell (c : Fin 64) (r : Fin 32) : (t.fb.pixel c r = true ∧ bits c r = true) ↔
      (s.fb.pixel c r = false ∧ bits c r = true) := by
    rw [h.pixel c r]
    cases s.fb.pixel c r <;> cases bits c r <;> decide
  simp only [h'.flag_hit, hcell]

/-- In bounds, a sprite has a set bit exactly when it has a byte that reads as other than zero. -/
theorem exists_sprite_iff {s : State} (x y : Reg) {n : Nat} (hrows : n ≤ 32) (hin : n = 0 ∨ s.i.toNat + n ≤ 4096) :
    (∃ c r, s.sprite x y n c r = true) ↔ ∃ j b, j < n ∧ memRead s.mem (s.i.toNat + j) = .ok b ∧ b ≠ 0 := by
  simp only [State.sprite, exists_spriteBit_iff _ _ _ _ hrows]
  constructor
  · rintro ⟨j, hj, hne⟩
    exact ⟨j, _, hj, memRead_ok (by omega), hne⟩
  · rintro ⟨j, b, hj, hread, hne⟩
    rw [memRead_ok (by omega)] at hread
    cases hread
    exact ⟨j, hj, hne⟩

/-! ### Statements -/

/-- Settles O46: DRW draws the bits of its sprite, and its flag says whether a set pixel was cleared. -/
theorem drawXorsSprite : Obligations.DrawXorsSprite := by
  intro x y n s hn hin
  obtain ⟨t, hexec, hdraw⟩ := exec_drw_drawsBits x y (by omega) hin
  have hmiss (hnone : ¬ ∃ c r, s.fb.pixel c r = true ∧ t.fb.pixel c r = false) : t.reg Reg.vf = 0 :=
    hdraw.flag_bit.resolve_right (mt hdraw.flag_cleared.mp hnone)
  exact ⟨t, hexec, hdraw.pixel, hdraw.flag_cleared.mpr, hmiss, hdraw.regs, hdraw.frame, sameMemory_of_mem_eq hdraw.mem_eq⟩

/-- Settles O47: the run is checked before a pixel or VF is written. -/
theorem drawPastMemoryFaults : Obligations.DrawPastMemoryFaults := fun x y _ s hn hout =>
  ⟨_, exec_drw_fault x y hn hout, faultsWith_raise s _⟩

/-- Settles O48: the second draw draws the same bits, so the two XORs cancel, and it collides exactly where the first one set a
pixel. -/
theorem drawTwiceRestores : Obligations.DrawTwiceRestores := by
  intro x y n s t hx hy hn hin hexec
  have hrows : n ≤ 32 := by omega
  obtain ⟨t', hexec', hfirst⟩ := exec_drw_drawsBits x y hrows hin
  cases exec_next_unique hexec hexec'
  obtain ⟨u, hexecu, hsecond⟩ := exec_drw_drawsBits (s := t) x y hrows (by rwa [hfirst.i_eq])
  rw [hfirst.sprite_eq hx hy n] at hsecond
  have hflag := hfirst.flag_twice hsecond
  refine ⟨u, hexecu, hfirst.fb_twice hsecond, hsecond.flag_bit, hflag, fun hclear => ?_⟩
  have hclear' (c : Fin 64) (r : Fin 32) : s.fb.pixel c r = false := hclear c r
  rw [hflag, ← exists_sprite_iff x y hrows hin]
  simp only [hclear', true_and]

end Sys2Proof.Machine
end

section
/-! PROOFS. Who owns which state (00_scope.md R15; 10_state.md R20 to R31): one inversion of exec that says what each instruction can write, and the frames of the whole machine from it. -/

namespace Sys2Proof.Machine

/-! ### What each instruction can write -/

/-- What the instruction i can make of s when it raises no fault: the fields it may write, and for memory and the registers
which bytes of them. -/
def Instr.Writes (i : Instr) (s t : State) : Prop :=
  match i with
  | .cls => ∃ fb, t = { s with fb := fb }
  | .ret | .call _ => ∃ stack pc, t = { s with stack := stack, pc := pc }
  | .jp _ | .jpV0 _ | .seImm _ _ | .sneImm _ _ | .seReg _ _ | .sneReg _ _ | .skp _ | .sknp _ => ∃ pc, t = { s with pc := pc }
  | .ldImm x _ | .addImm x _ | .ldReg x _ | .orReg x _ | .andReg x _ | .xorReg x _ | .ldVxDt x => ∃ b, t = s.setReg x b
  | .addReg _ _ | .sub _ _ | .shr _ _ | .subn _ _ | .shl _ _ => ∃ v, t = { s with v := v }
  | .ldI _ | .addIVx _ | .ldFVx _ => ∃ a, t = { s with i := a }
  | .rnd x _ => ∃ b draws, t = { s.setReg x b with draws := draws }
  | .drw _ _ _ => ∃ v fb, t = { s with v := v, fb := fb }
  | .ldVxK x => (∃ b, t = s.setReg x b) ∨ t = s.retract
  | .ldDtVx _ => ∃ dt, t = { s with dt := dt }
  | .ldStVx _ => ∃ st, t = { s with st := st }
  | .ldBVx _ => ∃ bs, bs.length = 3 ∧ t = { s with mem := Memory.placeAt s.mem s.i.toNat bs }
  | .ldMemVx x => ∃ bs, bs.length = x.val + 1 ∧ t = { s with mem := Memory.placeAt s.mem s.i.toNat bs }
  | .ldVxMem x => ∃ bs, bs.length = x.val + 1 ∧ t = s.loadRegs bs

/-- The inversion of exec for frames: an instruction raises, or writes what it owns. -/
theorem exec_writes {i : Instr} {s t : State} (h : exec i s = .next t) :
    (∃ f, t = s.raise f) ∨ Instr.Writes i s t := by
  cases i with
  | cls | ldImm | addImm | ldReg | orReg | andReg | xorReg | ldVxDt | addReg | sub | shr | subn | shl | ldI | addIVx | ldFVx
  | jp | jpV0 | ldDtVx | ldStVx =>
    cases h
    exact .inr ⟨_, rfl⟩
  | rnd =>
    cases h
    exact .inr ⟨_, _, rfl⟩
  | seImm | sneImm | seReg | sneReg =>
    cases h
    exact .inr ⟨_, s.skipIf_eq _⟩
  | ret =>
    rcases List.eq_nil_or_concat s.stack with hempty | ⟨rest, top, hstack⟩
    · exact .inl ⟨_, exec_next_unique h (exec_ret_empty hempty)⟩
    · rw [List.concat_eq_append] at hstack
      exact .inr ⟨_, _, exec_next_unique h (exec_ret_pop hstack)⟩
  | call nnn =>
    rcases Nat.lt_or_ge s.stack.length s.params.stackDepth with hroom | hfull
    · exact .inr ⟨_, _, exec_next_unique h (exec_call_room nnn hroom)⟩
    · exact .inl ⟨_, exec_next_unique h (exec_call_full nnn hfull)⟩
  | skp x =>
    rcases Nat.lt_or_ge (s.reg x).toNat 16 with hkey | hout
    · exact .inr ⟨_, exec_next_unique h (exec_skp_key (k := ⟨_, hkey⟩) rfl)⟩
    · exact .inl ⟨_, exec_next_unique h (exec_skp_fault hout)⟩
  | sknp x =>
    rcases Nat.lt_or_ge (s.reg x).toNat 16 with hkey | hout
    · exact .inr ⟨_, exec_next_unique h (exec_sknp_key (k := ⟨_, hkey⟩) rfl)⟩
    · exact .inl ⟨_, exec_next_unique h (exec_sknp_fault hout)⟩
  | ldVxK x =>
    by_cases hpressed : ∃ k : Fin 16, s.keys[k] = true
    · obtain ⟨b, hexec⟩ := exec_ldVxK_pressed x hpressed
      exact .inr (.inl ⟨b, exec_next_unique h hexec⟩)
    · have hnone (k : Fin 16) : s.keys[k] = false := Bool.eq_false_of_not_eq_true fun hk => hpressed ⟨k, hk⟩
      exact .inr (.inr (exec_next_unique h (exec_ldVxK_none x hnone)))
  | drw x y n =>
    by_cases hin : n = 0 ∨ s.i.toNat + n ≤ 4096
    · exact .inr ⟨_, _, exec_next_unique h (exec_drw_draw x y hin)⟩
    · exact .inl ⟨_, exec_next_unique h (exec_drw_fault x y (by omega) (by omega))⟩
  | ldBVx x =>
    rcases Nat.lt_or_ge 4096 (s.i.toNat + 3) with hout | hin
    · exact .inl ⟨_, exec_next_unique h (exec_ldBVx_fault x hout)⟩
    · exact .inr ⟨_, bcdDigits_length (s.reg x), exec_next_unique h (exec_ldBVx_store x hin)⟩
  | ldMemVx x =>
    rcases Nat.lt_or_ge (s.i.toNat + x.val) 4096 with hin | hout
    · exact .inr ⟨_, s.length_regsTo x, exec_next_unique h (exec_ldMemVx_store hin)⟩
    · exact .inl ⟨_, exec_next_unique h (exec_ldMemVx_fault hout)⟩
  | ldVxMem x =>
    rcases Nat.lt_or_ge (s.i.toNat + x.val) 4096 with hin | hout
    · exact .inr ⟨_, by simp, exec_next_unique h (exec_ldVxMem_load hin)⟩
    · exact .inl ⟨_, exec_next_unique h (exec_ldVxMem_fault hout)⟩

/-! ### Memory and VF under an instruction -/

/-- A byte that reads otherwise after bytes were placed lies in their run. -/
theorem in_run_of_memRead_ne {m : Memory} {a b : Nat} {bs : List Byte}
    (h : memRead (Memory.placeAt m a bs) b ≠ memRead m b) : a ≤ b ∧ b < a + bs.length := by
  by_contra hout
  exact h (memRead_congr (m.cell_placeAt_outside (by omega)))

/-- A write of VX that changes VF names it. -/
theorem eq_vf_of_setReg {s : State} {x : Reg} {b : Byte} (h : (s.setReg x b).reg Reg.vf ≠ s.reg Reg.vf) : x = Reg.vf := by
  by_contra hx
  exact h (s.reg_vf_setReg b hx)

/-- A load of V0 to VX that changes VF reaches it. -/
theorem eq_vf_of_loadRegs {s : State} {x : Reg} {bs : List Byte} (hlen : bs.length = x.val + 1)
    (h : (s.loadRegs bs).reg Reg.vf ≠ s.reg Reg.vf) : x = Reg.vf := by
  by_contra hx
  have hval : x.val ≠ 15 := fun he => hx (Fin.ext he)
  have hnone : bs[Reg.vf.val]? = none := List.getElem?_eq_none (show bs.length ≤ 15 by omega)
  exact h (by rw [State.reg_loadRegs, hnone, Option.getD_none])

/-! ### Statements -/

/-- Settles O52: each is one write of the one field. -/
theorem oneFieldFrames : Obligations.OneFieldFrames := by
  intro nnn x i s t h
  refine ⟨?cls, ?index, ?delay, ?sound⟩
  case cls =>
    rintro rfl
    cases exec_next_unique h (exec_cls s)
    exact ⟨rfl, sameMemory_of_mem_eq rfl⟩
  case index =>
    intro hi
    simp only [List.mem_cons, List.not_mem_nil, or_false] at hi
    rcases hi with rfl | rfl | rfl
    all_goals
      cases h
      exact ⟨rfl, sameMemory_of_mem_eq rfl⟩
  case delay =>
    rintro rfl
    cases exec_next_unique h (exec_ldDtVx x s)
    exact ⟨rfl, sameMemory_of_mem_eq rfl⟩
  case sound =>
    rintro rfl
    cases exec_next_unique h (exec_ldStVx x s)
    exact ⟨rfl, sameMemory_of_mem_eq rfl⟩

/-- Settles O53: a raise writes PC and the latch alone, and each instruction writes what it owns. -/
theorem stateHasOwners : Obligations.StateHasOwners := by
  intro i s t h
  rcases exec_writes h with ⟨f, rfl⟩ | hwrites
  · simp
  cases i with
  | cls | jp | jpV0 | seImm | sneImm | seReg | sneReg | skp | sknp | ldImm | addImm | ldReg | orReg | andReg | xorReg | ldVxDt
  | addReg | sub | shr | subn | shl | ldI | addIVx | ldFVx | ldDtVx | ldStVx =>
    obtain ⟨_, rfl⟩ := hwrites
    simp
  | ret | call | rnd | drw =>
    obtain ⟨_, _, rfl⟩ := hwrites
    simp
  | ldVxK =>
    rcases hwrites with ⟨_, rfl⟩ | rfl
    · simp
    · simp
  | ldBVx | ldMemVx | ldVxMem =>
    obtain ⟨_, -, rfl⟩ := hwrites
    simp

/-- Settles O54: only the two stores write memory, each the run of its bytes. -/
theorem storesStayInTheirRun : Obligations.StoresStayInTheirRun := by
  intro i s t a h hread
  rcases exec_writes h with ⟨f, rfl⟩ | hwrites
  · exact absurd rfl hread
  cases i with
  | cls | jp | jpV0 | seImm | sneImm | seReg | sneReg | skp | sknp | ldImm | addImm | ldReg | orReg | andReg | xorReg | ldVxDt
  | addReg | sub | shr | subn | shl | ldI | addIVx | ldFVx | ldDtVx | ldStVx =>
    obtain ⟨_, rfl⟩ := hwrites
    exact absurd rfl hread
  | ret | call | rnd | drw =>
    obtain ⟨_, _, rfl⟩ := hwrites
    exact absurd rfl hread
  | ldVxK =>
    rcases hwrites with ⟨_, rfl⟩ | rfl
    · exact absurd rfl hread
    · exact absurd rfl hread
  | ldVxMem =>
    obtain ⟨_, -, rfl⟩ := hwrites
    exact absurd rfl hread
  | ldBVx x =>
    obtain ⟨bs, hlen, rfl⟩ := hwrites
    obtain ⟨hlo, hhi⟩ := in_run_of_memRead_ne hread
    exact .inl ⟨x, rfl, hlo, by omega⟩
  | ldMemVx x =>
    obtain ⟨bs, hlen, rfl⟩ := hwrites
    obtain ⟨hlo, hhi⟩ := in_run_of_memRead_ne hread
    exact .inr ⟨x, rfl, hlo, by omega⟩

/-- Settles O55: an instruction that can write VF is a flag writer, or writes a VX that is then VF. -/
theorem flagHasOwners : Obligations.FlagHasOwners := by
  intro i s t h hvf
  rcases exec_writes h with ⟨f, rfl⟩ | hwrites
  · exact absurd rfl hvf
  cases i with
  | addReg | sub | shr | subn | shl | drw => simp
  | cls | jp | jpV0 | seImm | sneImm | seReg | sneReg | skp | sknp | ldI | addIVx | ldFVx | ldDtVx | ldStVx =>
    obtain ⟨_, rfl⟩ := hwrites
    exact absurd rfl hvf
  | ret | call =>
    obtain ⟨_, _, rfl⟩ := hwrites
    exact absurd rfl hvf
  | ldBVx | ldMemVx =>
    obtain ⟨_, -, rfl⟩ := hwrites
    exact absurd rfl hvf
  | ldImm x | addImm x | ldReg x | orReg x | andReg x | xorReg x | ldVxDt x =>
    obtain ⟨_, rfl⟩ := hwrites
    simp [eq_vf_of_setReg hvf]
  | rnd x =>
    obtain ⟨b, _, rfl⟩ := hwrites
    have hx : x = Reg.vf := eq_vf_of_setReg (b := b) hvf
    simp [hx]
  | ldVxK x =>
    rcases hwrites with ⟨_, rfl⟩ | rfl
    · simp [eq_vf_of_setReg hvf]
    · exact absurd rfl hvf
  | ldVxMem x =>
    obtain ⟨_, hlen, rfl⟩ := hwrites
    simp [eq_vf_of_loadRegs hlen hvf]

end Sys2Proof.Machine
end

section
/-! PROOFS. Runs that change little (60_exceptions.md R229; 70_reset_and_hazards.md R244, R245, R252): a key wait and a self-jump step to their own state, and zero bytes are passed over. -/

namespace Sys2Proof.Machine

/-- An instruction that undoes the fetch increment and nothing else steps a running core to its own state. -/
theorem stepReport_idle {s : State} {op : Word} {i : Instr} (hrun : s.fault = none)
    (hfetch : fetch16 s.mem s.pc.toNat = .ok op) (hdecode : decodeWord op = .instr i)
    (hexec : exec i s.advance = .next s) : stepReport s = .next (s, .ok) := by
  rw [stepReport_instr hrun hfetch hdecode hexec, reportOf, hrun]

/-- A key wait with no key pressed is idle. -/
theorem stepReport_waitKey {s : State} {op : Word} {x : Reg} (hrun : s.fault = none)
    (hfetch : fetch16 s.mem s.pc.toNat = .ok op) (hdecode : decodeWord op = .instr (.ldVxK x))
    (hnone : ∀ k : Fin 16, s.keys[k] = false) : stepReport s = .next (s, .ok) := by
  refine stepReport_idle hrun hfetch hdecode ?_
  rw [exec_ldVxK_none (s := s.advance) x hnone, State.retract_advance]

/-- Settles O50: the wait is idle, and a tick changes nothing that it reads. -/
theorem waitKeyStalls : Obligations.WaitKeyStalls := by
  intro s op x hrun hfetch hdecode hnone
  have hreport := stepReport_waitKey hrun hfetch hdecode hnone
  refine ⟨fun n => runSteps_stays n (step_of_report hreport), hreport, ?delay, ?sound⟩
  case delay =>
    rw [State.tickDelay_eq]
    exact step_of_report (stepReport_waitKey (s := { s with dt := _ }) hrun hfetch hdecode hnone)
  case sound =>
    rw [State.tickSound_eq]
    exact step_of_report (stepReport_waitKey (s := { s with st := _ }) hrun hfetch hdecode hnone)

/-- Settles O56: the word is the encoding of a jump to PC, which is idle. -/
theorem selfJumpIdles : Obligations.SelfJumpIdles := by
  intro s op hrun hfetch hop
  have hbound := fetch16_ok_bound hfetch
  have hfits : fitsAddress s.pc := show s.pc.toNat < 0x1000 by omega
  have hword : encode (.jp s.pc) = op := by
    refine BitVec.eq_of_toNat_eq ?_
    rw [encode, encodeNNN_toNat (by decide) hfits, hop]
  have hdecode : decodeWord op = .instr (.jp s.pc) := decodeWord_eq_instr_iff.mpr ⟨decide_eq_true hfits, hword⟩
  have hreport := stepReport_idle hrun hfetch hdecode (exec_jp s.pc s.advance)
  exact ⟨hreport, fun n => runSteps_stays n (step_of_report hreport)⟩

/-- Two zero bytes are an unknown word: the step advances PC only. -/
theorem step_zeroWord {s : State} (hrun : s.fault = none) (hhi : memRead s.mem s.pc.toNat = .ok 0)
    (hlo : memRead s.mem (s.pc.toNat + 1) = .ok 0) : step s = .next s.advance :=
  step_of_report (stepReport_unknown hrun (fetch16_of_bytes hhi hlo) (w := 0) rfl)

/-- Settles O57, by induction on the number of words: one step passes over the first, and PC does not wrap. -/
theorem zeroRunIsPassedOver : Obligations.ZeroRunIsPassedOver := by
  intro n
  induction n with
  | zero => exact fun s _ _ _ => ⟨s, rfl, rfl, rfl⟩
  | succ n ih =>
    intro s hrun hbound hzero
    have hpc : s.advance.pc.toNat = s.pc.toNat + 2 := by
      rw [State.advance_pc]
      bv_omega
    have hstep := step_zeroWord hrun (hzero _ (by omega) (by omega)) (hzero _ (by omega) (by omega))
    obtain ⟨t, hsteps, hframe, htpc⟩ := ih s.advance hrun (by omega) fun a hlo hhi => hzero a (by omega) (by omega)
    exact ⟨t, (runSteps_succ n hstep).trans hsteps, hframe, by omega⟩

end Sys2Proof.Machine
end
